-- ==== Sys2Proof/Word.lean ====
section
/-! DEFINITION. The two bit vectors of the block: a register word and a soft symbol. -/

namespace Sys2Proof

/-- A register, a command word or a symbol-memory address: 32 bits (00_scope.md R11). -/
abbrev Word := BitVec 32

/-- One byte of symbol memory, one soft symbol (20_memory.md R80). -/
abbrev Byte := BitVec 8

end Sys2Proof
end

