-- ==== Sys2Proof/Config.lean ====
section
/-! DEFINITION. What is fixed for the block: the format constants of 00_scope.md R8, the default of the open parameter
SYM_MEM_SIZE (R10) and the free values of 70_reset_and_hazards.md R290. -/

namespace Sys2Proof.Config

/-- SYNC_LEN: symbols in one sync word (00_scope.md R8). -/
abbrev syncLen : Nat := 8

/-- DATA_LEN: data symbols following each sync word (00_scope.md R8). -/
abbrev dataLen : Nat := 72

/-- FRAME_LEN, P: symbols in one frame period (00_scope.md R8). -/
abbrev frameLen : Nat := 80

/-- INTLV_B: interleaver branches (00_scope.md R8). -/
abbrev intlvB : Nat := 36

/-- INTLV_D: per-branch delay (00_scope.md R8). -/
abbrev intlvD : Nat := 2048

/-- INTLV_L: base length, B·D (00_scope.md R8). -/
abbrev intlvL : Nat := 73728

/-- INTLV_M: full message length, B·L (00_scope.md R8). -/
abbrev intlvM : Nat := 2654208

/-- SQRT_MAX: largest index of the square-root table (00_scope.md R8). -/
abbrev sqrtMax : Nat := 16384

/-- The default of SYM_MEM_SIZE, 2^23 (00_scope.md R10). -/
abbrev defaultSymMemSize : Nat := 8388608

/-- The largest SYM_MEM_SIZE, 2^32 (00_scope.md R10). -/
abbrev maxSymMemSize : Nat := 4294967296

/-- FREE VALUE (log 8, DESIGN CHOICE of form; safe). `freeByte d a` is what address `a` holds after the `d`-th reset that abandoned a
command which could write there: "The bytes of the regions it could write then hold unspecified values"
(70_reset_and_hazards.md R290). It has no body, so nothing can be proved of its value. -/
opaque freeByte : Nat → Nat → Byte

end Sys2Proof.Config
end

