-- ==== Sys2Proof/Machine/State.lean ====
section
/-! DEFINITION. The state of the block and of the host beside it, as plain data; the state after reset; the reasons a step stops.
Each field's docstring names the rule of spec/ that gives it. -/

namespace Sys2Proof.Machine

/-- STATUS.ERRCODE (60_exceptions.md R261). Codes 9–15 are reserved and never produced, so there is no such value. -/
inductive ErrCode where
  | noError
  | illegalCmd
  | tableNotReady
  | tableLifecycle
  | badLength
  | badCfg
  | sqrtArgRange
  | range
  | overlap
  deriving DecidableEq, Repr

/-- STATUS.OUTCOME (60_exceptions.md R267). Code 3 is reserved and never produced. -/
inductive CmdOutcome where
  | ok
  | noSync
  | noShrink
  deriving DecidableEq, Repr

/-- STATUS.TABLE_STATE, the lifecycle of the square-root table (10_state.md R34, R53). Code 3 is reserved and never produced. -/
inductive TableState where
  | uninit
  | ready
  | released
  deriving DecidableEq, Repr

/-- The two agents (10_state.md R31). -/
inductive Agent where
  | host
  | engine
  deriving DecidableEq, Repr

/-- The widths a host access to symbol memory may have, in bytes: w ∈ {1, 2, 4} (20_memory.md R86). -/
inductive SymWidth where
  | one
  | two
  | four
  deriving DecidableEq, Repr

/-- One entry of the host's program: a transaction of 44_host_interface.md R240–R242, a POLL (30_encoding.md R116), or the
platform asserting the reset input at this point (70_reset_and_hazards.md R290; log 10). A register access carries its byte
offset in the 256-byte register space and its width in bits, so that a malformed one can be written down (20_memory.md R86).
The host's choice of its next transaction by what it has read (44_host_interface.md R249) is resolved beforehand by the list: DESIGN
CHOICE (log 23, safe over every list). -/
inductive HostOp where
  | regRead (offset : BitVec 8) (width : Nat)
  | regWrite (offset : BitVec 8) (width : Nat) (v : Word)
  | symRead (addr : Nat) (width : SymWidth)
  | symWrite (addr : Nat) (width : SymWidth) (v : Word)
  | poll
  | reset
  deriving DecidableEq, Repr

/-- Symbol memory: the bytes that differ from what an unlisted address reads as, by rising address (20_memory.md R80; log 2). -/
abbrev Memory := List Host.Cell

/-- What an address the memory does not list reads as. The spec leaves the contents at power-on unspecified
(70_reset_and_hazards.md R291). DESIGN CHOICE (log 2, unsafe): 0x00. -/
abbrev Memory.unlisted : Byte := 0

/-- The one canonical form: addresses strictly rising, and no entry equal to what an unlisted address reads as. -/
abbrev Memory.wf (m : Memory) : Prop :=
  m.Pairwise (fun c d => c.1 < d.1) ∧ ∀ c ∈ m, c.2 ≠ Memory.unlisted

/-- The whole machine: the block's registers and symbol memory, the parameter SYM_MEM_SIZE, and the host with its program. -/
structure State where
  /-- The pending command word; STATUS.BUSY is its presence (10_state.md R31; 44_host_interface.md R244). -/
  pending : Option Word
  /-- STATUS.DONE (10_state.md R34). -/
  done : Bool
  /-- STATUS.FOUND (10_state.md R34). -/
  found : Bool
  /-- STATUS.ERR (10_state.md R34). -/
  err : Bool
  /-- STATUS.ERR_STICKY (10_state.md R34). -/
  errSticky : Bool
  /-- STATUS.ERRCODE (10_state.md R34). -/
  errCode : ErrCode
  /-- STATUS.OUTCOME (10_state.md R34). -/
  outcome : CmdOutcome
  /-- STATUS.TABLE_STATE (10_state.md R34, R53). -/
  tableState : TableState
  /-- STATUS.LAST_OP (10_state.md R34). -/
  lastOp : Byte
  /-- CTRL bit 0, DIFF_SAT (10_state.md R36). -/
  ctrlDiffSat : Bool
  /-- SRC_BASE (10_state.md R37). -/
  srcBase : Word
  /-- SRC_LEN (10_state.md R38). -/
  srcLen : Word
  /-- DST_BASE (10_state.md R39). -/
  dstBase : Word
  /-- LOC_STRIDE (10_state.md R40). -/
  locStride : Word
  /-- LOC_DEPTH (10_state.md R41). -/
  locDepth : Word
  /-- LOC_WINDOW (10_state.md R42). -/
  locWindow : Word
  /-- RESYNC_CFG (10_state.md R43); all 32 bits are writable. -/
  resyncCfg : Word
  /-- SYNC_OFFSET (10_state.md R44). -/
  syncOffset : Word
  /-- SYNC_BYTE bits 7:0 (10_state.md R45). -/
  syncByte : Byte
  /-- RESULT_LEN (10_state.md R46). -/
  resultLen : Word
  /-- DIFF_PREV bits 7:0, PREV_I (10_state.md R47, R54). -/
  diffPrevI : Byte
  /-- DIFF_PREV bits 15:8, PREV_Q (10_state.md R47, R54). -/
  diffPrevQ : Byte
  /-- SQRT_ARG (10_state.md R48). -/
  sqrtArg : Word
  /-- SQRT_RES (10_state.md R49). -/
  sqrtRes : Word
  /-- Symbol memory (10_state.md R56; 20_memory.md R80). -/
  mem : Memory
  /-- The open parameter SYM_MEM_SIZE (00_scope.md R10); no step changes it (log 1). -/
  symMemSize : Nat
  /-- HOST_FAULT, the host-protocol fault mark (10_state.md R57). -/
  hostFault : Bool
  /-- The host's transactions still to come, next first (44_host_interface.md R243). -/
  hostProgram : List HostOp
  /-- Who moves at each choice between host and engine, next first (44_host_interface.md R243; log 3). -/
  schedule : List Agent
  /-- The values the host's reads have returned, newest first (44_host_interface.md R240, R242; log 5). -/
  hostReceived : List Word
  /-- THE MODEL'S OWN field: how many draws of unspecified bytes have been made; it numbers the free values (log 8). -/
  draws : Nat
  deriving DecidableEq, Repr

/-- The reasons the machine stops with a fault. -/
inductive Fault where
  /-- Raised by `step` on a state whose HOST_FAULT mark is set: "A run with HOST_FAULT = true has no meaning"
  (44_host_interface.md R248). Safe: the real block may do anything there (60_exceptions.md R270), and the model stops. -/
  | hostProtocol
  deriving DecidableEq, Repr

/-- The reasons a step is refused. -/
inductive Refusal where
  /-- The arm of an instruction that has no meaning yet. Safe: the model stops. No arm of this model uses it. -/
  | notModelled (mnemonic : String)
  deriving DecidableEq, Repr

/-- STATUS.BUSY: 1 = a command is pending (10_state.md R34). -/
abbrev State.busy (s : State) : Bool := s.pending.isSome

/-- The state after power-on reset (10_state.md R60; 70_reset_and_hazards.md R290): every register at R60's value, SYM_MEM_SIZE at
R10's default, nothing listed in memory (log 2), no host transaction to come (log 15). -/
def State.reset : State where
  pending := none
  done := false
  found := false
  err := false
  errSticky := false
  errCode := .noError
  outcome := .ok
  tableState := .uninit
  lastOp := 0x00
  ctrlDiffSat := false
  srcBase := 0
  srcLen := 0
  dstBase := 0
  locStride := 0
  locDepth := 0
  locWindow := 0
  resyncCfg := 0x00800304
  syncOffset := 0
  syncByte := 0
  resultLen := 0
  diffPrevI := 0
  diffPrevQ := 0
  sqrtArg := 0
  sqrtRes := 0
  mem := []
  symMemSize := Config.defaultSymMemSize
  hostFault := false
  hostProgram := []
  schedule := []
  hostReceived := []
  draws := 0

/-- Power-on reset with symbol memory holding `m`: "A model takes them as an arbitrary initial array (a draw), and claims quantify
over it" (70_reset_and_hazards.md R291). -/
def State.powerOn (m : Memory) : State := { State.reset with mem := m }

end Sys2Proof.Machine
end

