-- ==== Sys2Proof/Machine/Ops.lean ====
section
/-! DEFINITION. The named operations: reading and writing symbol memory, ending a command normally, ending it with an error (the
block's one exception, 60_exceptions.md R263), and the launch, the block's counterpart of a return from one (R269). -/

namespace Sys2Proof.Machine

/-- `MemRead(a, 1)`: the byte at address a (00_scope.md R15). -/
def Memory.read : Memory → Nat → Byte
  | [], _ => Memory.unlisted
  | c :: m, a => if a = c.1 then c.2 else Memory.read m a

/-- `c` in front of `m`, or `m` alone where `c` holds what an unlisted address reads as. -/
def Memory.cons (a : Nat) (v : Byte) (m : Memory) : Memory :=
  if v = Memory.unlisted then m else (a, v) :: m

/-- `MemWrite(a, 1, v)`: sets the byte at address a (00_scope.md R15), keeping the canonical form. -/
def Memory.write : Memory → Nat → Byte → Memory
  | [], a, v => Memory.cons a v []
  | c :: m, a, v =>
    if a < c.1 then Memory.cons a v (c :: m)
    else if a = c.1 then Memory.cons a v m
    else c :: Memory.write m a v

/-- The bytes `bs` written at a, a+1, … in rising order (20_memory.md R83: one byte at a time). -/
def Memory.writeBytes : Memory → Nat → List Byte → Memory
  | m, _, [] => m
  | m, a, b :: bs => Memory.writeBytes (m.write a b) (a + 1) bs

/-- The `n` bytes at a, a+1, …, a+n−1. -/
def Memory.readBytes (m : Memory) (a : Nat) : Nat → List Byte
  | 0 => []
  | n + 1 => m.read a :: m.readBytes (a + 1) n

/-- `n` bytes from address a on take the free values of draw `d` (70_reset_and_hazards.md R290; log 8). -/
def Memory.scramble (m : Memory) (d a : Nat) : Nat → Memory
  | 0 => m
  | n + 1 => (m.write a (Config.freeByte d a)).scramble d (a + 1) n

/-- `complete(outcome)`: OUTCOME written, BUSY 0, DONE 1 (44_host_interface.md R246). -/
def State.complete (s : State) (o : CmdOutcome) : State :=
  { s with outcome := o, pending := none, done := true }

/-- `raise Error(code)`: TAKING AN EXCEPTION on this block (60_exceptions.md R263, R269). ERR and ERR_STICKY are set, ERRCODE holds the
code, OUTCOME is OK, and the command ends; nothing else changes (R262). -/
def State.raiseError (s : State) (code : ErrCode) : State :=
  { s with err := true, errSticky := true, errCode := code, outcome := .ok, pending := none, done := true }

/-- LAUNCH(v): a host write of v to CMD (44_host_interface.md R244). It clears the previous command's flags, which makes it "the counterpart of
a return from trap" (60_exceptions.md R269). ERR_STICKY and TABLE_STATE stay. -/
def State.launch (s : State) (v : Word) : State :=
  { s with
    lastOp := v.extractLsb' 0 8, pending := some v, done := false, found := false, err := false, errCode := .noError,
    outcome := .ok }

/-- A command's end by `complete` (44_host_interface.md R246). -/
def completeWith (o : CmdOutcome) (s : State) : Host.Outcome State Fault Refusal := .next (s.complete o)

/-- A command's end by `raise Error` (60_exceptions.md R263). The machine goes on: an error is a next state. -/
def raise (code : ErrCode) (s : State) : Host.Outcome State Fault Refusal := .next (s.raiseError code)

end Sys2Proof.Machine
end

