-- ==== Sys2Proof/Machine/Operands.lean ====
section
/-! DEFINITION. Operand assembly (30_encoding.md R112): each operand as the unbounded integer (00_scope.md R11) its register stands for,
and the region predicates over them (20_memory.md R87, R88). No operand is scaled or shifted. -/

namespace Sys2Proof.Machine

/-- `s8(b)`: a byte read as two's complement (00_scope.md R13). -/
def s8 (b : Byte) : Int := b.toInt

/-- `u8(v)`: v mod 256 (00_scope.md R13). -/
def u8 (v : Int) : Byte := BitVec.ofInt 8 v

/-- src = zext SRC_BASE. -/
def State.src (s : State) : Nat := s.srcBase.toNat

/-- n = zext SRC_LEN. -/
def State.n (s : State) : Nat := s.srcLen.toNat

/-- dst = zext DST_BASE. -/
def State.dst (s : State) : Nat := s.dstBase.toNat

/-- stride = zext LOC_STRIDE. -/
def State.stride (s : State) : Nat := s.locStride.toNat

/-- depth = zext LOC_DEPTH. -/
def State.depth (s : State) : Nat := s.locDepth.toNat

/-- window = zext LOC_WINDOW. -/
def State.window (s : State) : Nat := s.locWindow.toNat

/-- acq_depth = RESYNC_CFG[7:0]. -/
def State.acqDepth (s : State) : Nat := (s.resyncCfg.extractLsb' 0 8).toNat

/-- retry = RESYNC_CFG[15:8]. -/
def State.retry (s : State) : Nat := (s.resyncCfg.extractLsb' 8 8).toNat

/-- lookahead = RESYNC_CFG[31:16]. -/
def State.lookahead (s : State) : Nat := (s.resyncCfg.extractLsb' 16 16).toNat

/-- prev_i = s8 DIFF_PREV[7:0]. -/
def State.prevI (s : State) : Int := s8 s.diffPrevI

/-- prev_q = s8 DIFF_PREV[15:8]. -/
def State.prevQ (s : State) : Int := s8 s.diffPrevQ

/-- a = sext_32 SQRT_ARG, in [−2^31, 2^31−1]. -/
def State.sqrtOperand (s : State) : Int := s.sqrtArg.toInt

/-- `Sym[base + i]` as a function of i: the symbol sequence at `base`, as it stands in `s`. Taken from a command's start state it is the
snapshot `Snap` (00_scope.md R15; 40_sync_detector.md R151). -/
def State.sym (s : State) (base : Nat) (i : Nat) : Byte := s.mem.read (base + i)

/-- `valid(base, len)` (20_memory.md R87), for a memory of `size` bytes. -/
abbrev RegionValid (size base len : Nat) : Prop := len = 0 ∨ base + len ≤ size

/-- `overlap((a, m), (b, n))` (20_memory.md R88). -/
abbrev RegionOverlap (a m b n : Nat) : Prop := m > 0 ∧ n > 0 ∧ a < b + n ∧ b < a + m

end Sys2Proof.Machine
end

