-- ==== Sys2Proof/Machine/Flags.lean ====
section
/-! DEFINITION. The STATUS register: the code of each field and the word the host reads (10_state.md R34). The block has no condition
codes (R58); these are its only flags, and the launch, `complete` and `raise Error` of Machine/Ops.lean set them. -/

namespace Sys2Proof.Machine

/-- The value of STATUS.ERRCODE (60_exceptions.md R261). -/
def ErrCode.code : ErrCode → BitVec 4
  | .noError => 0
  | .illegalCmd => 1
  | .tableNotReady => 2
  | .tableLifecycle => 3
  | .badLength => 4
  | .badCfg => 5
  | .sqrtArgRange => 6
  | .range => 7
  | .overlap => 8

/-- The value of STATUS.OUTCOME (60_exceptions.md R267). -/
def CmdOutcome.code : CmdOutcome → BitVec 2
  | .ok => 0
  | .noSync => 1
  | .noShrink => 2

/-- The value of STATUS.TABLE_STATE (10_state.md R34). -/
def TableState.code : TableState → BitVec 2
  | .uninit => 0
  | .ready => 1
  | .released => 2

/-- The STATUS word (10_state.md R34), from LAST_OP in bits 31:24 down to BUSY in bit 0; bits 23:18, 15:14 and 7:5 are reserved and read 0
(R51). -/
def State.statusWord (s : State) : Word :=
  s.lastOp ++ (0 : BitVec 6) ++ s.tableState.code ++ (0 : BitVec 2) ++ s.outcome.code ++ s.errCode.code ++ (0 : BitVec 3)
    ++ BitVec.ofBool s.errSticky ++ BitVec.ofBool s.err ++ BitVec.ofBool s.found ++ BitVec.ofBool s.done
    ++ BitVec.ofBool s.busy

/-- RESULT_LEN and FOUND after a resynchronization of `rp` symbols (40_sync_detector.md R156; 41_deinterleaver.md R185). -/
def State.reportLength (s : State) (rp : Nat) : State :=
  { s with resultLen := BitVec.ofNat 32 rp, found := decide (rp > 0) }

end Sys2Proof.Machine
end

