-- ==== Sys2Proof/Machine/Control.lean ====
section
/-! DEFINITION. The family of 44_host_interface.md: NOP, and the meaning of an illegal command word. -/

namespace Sys2Proof.Machine

/-- NOP (44_host_interface.md R245): it does nothing except complete. -/
def execNop (s : State) : Host.Outcome State Fault Refusal := completeWith .ok s

/-- An illegal command word (44_host_interface.md R247): `raise Error(ILLEGAL_CMD)`, and nothing else. -/
def execIllegal (s : State) : Host.Outcome State Fault Refusal := raise .illegalCmd s

end Sys2Proof.Machine
end

