-- ==== Sys2Proof/Machine/SyncDetector.lean ====
section
/-! DEFINITION. The sync marker detector (40_sync_detector.md): the Sync Locator (SYNC_LOCATE) and the Stream Resynchronizer (RESYNC). A symbol
sequence X is a function from index to byte together with its length. -/

namespace Sys2Proof.Machine

/-- Hard-decision bit (40_sync_detector.md R140): the symbol is read unsigned. -/
def hd (b : Byte) : Nat := if b.toNat < 128 then 1 else 0

/-- Hard-decision byte `HB(X, p)` (40_sync_detector.md R141): the symbol at p gives bit 0, the one at p+7 gives bit 7. -/
def hardByte (X : Nat → Byte) (p : Nat) : Byte :=
  BitVec.ofNat 8
    (hd (X p) + (hd (X (p + 1)) <<< 1) + (hd (X (p + 2)) <<< 2) + (hd (X (p + 3)) <<< 3) + (hd (X (p + 4)) <<< 4)
      + (hd (X (p + 5)) <<< 5) + (hd (X (p + 6)) <<< 6) + (hd (X (p + 7)) <<< 7))

/-- The first of the `count` numbers start, start+1, … that satisfies `p`. -/
def firstFrom (p : Nat → Bool) : Nat → Nat → Option Nat
  | 0, _ => none
  | count + 1, start => if p start then some start else firstFrom p count (start + 1)

/-- `p` holds of every k in 1..d. -/
def allUpTo (p : Nat → Bool) : Nat → Bool
  | 0 => true
  | d + 1 => allUpTo p d && p (d + 1)

/-- Offset `o` qualifies (40_sync_detector.md R142): its last confirmation lies inside the `len` symbols of X, and every confirmation
matches. -/
def qualifies (X : Nat → Byte) (len stride depth o : Nat) : Bool :=
  decide (o + stride * depth + 8 ≤ len) && allUpTo (fun k => hardByte X (o + k * stride) == hardByte X o) depth

/-- `LOCATE(X, stride, depth, window)` (40_sync_detector.md R142): the first qualifying offset below window − stride·depth with its byte, or
`none` for the spec's (false, 0, 0). -/
def locate (X : Nat → Byte) (len stride depth window : Nat) : Option (Nat × Byte) :=
  (firstFrom (qualifies X len stride depth) (window - stride * depth) 0).map fun o => (o, hardByte X o)

/-- The symbols SYNC_LOCATE may read (40_sync_detector.md R147): window + 7, or none where there is no candidate. -/
def State.locateSpan (s : State) : Nat := if s.window > s.stride * s.depth then s.window + 7 else 0

/-- SYNC_LOCATE (40_sync_detector.md R147). -/
def execSyncLocate (s : State) : Host.Outcome State Fault Refusal :=
  if ¬ RegionValid s.symMemSize s.src s.locateSpan then raise .range s
  else
    match locate (s.sym s.src) s.locateSpan s.stride s.depth s.window with
    | some (o, b) => completeWith .ok { s with syncOffset := BitVec.ofNat 32 o, syncByte := b, found := true }
    | none => completeWith .noSync { s with syncOffset := 0, syncByte := 0, found := false }

/-- `LOOKAHEAD(pos)` (40_sync_detector.md R155): the first k in 1..la with a whole frame at pos + k·80 whose hard-decision byte is
`sync`; `count` candidates from k on are left. -/
def lookAheadFrom (snap : Nat → Byte) (n : Nat) (sync : Byte) (pos : Nat) : Nat → Nat → Option Nat
  | 0, _ => none
  | count + 1, k =>
    if pos + k * 80 + 80 > n then none
    else if hardByte snap (pos + k * 80) = sync then some k
    else lookAheadFrom snap n sync pos count (k + 1)

/-- The frame confirmed at or after `pos`, as the number of periods to skip: 0 where the byte at pos matches, else the look-ahead's k, else
none (40_sync_detector.md R154 (a)). -/
def confirm (snap : Nat → Byte) (n la : Nat) (sync : Byte) (pos : Nat) : Option Nat :=
  if hardByte snap pos = sync then some 0 else lookAheadFrom snap n sync pos la 1

/-- Tracking from `pos` (40_sync_detector.md R154): the confirmed frames' positions, and the cursor where tracking ends. `fuel` bounds the frames;
each moves the cursor by at least 80, so n + 1 never runs out (R157; log 16). -/
def track (snap : Nat → Byte) (n la : Nat) (sync : Byte) : Nat → Nat → List Nat × Nat
  | 0, pos => ([], pos)
  | fuel + 1, pos =>
    if pos + 80 ≤ n then
      match confirm snap n la sync pos with
      | none => ([], pos)
      | some k =>
        let rest := track snap n la sync fuel (pos + k * 80 + 80)
        ((pos + k * 80) :: rest.1, rest.2)
    else ([], pos)

/-- Coarse acquisition from `pos` (40_sync_detector.md R152, R153): the positions of all frames confirmed from there on. `fuel` bounds the coarse
steps (R157; log 16). -/
def coarse (snap : Nat → Byte) (n depth retry la : Nat) : Nat → Nat → List Nat
  | 0, _ => []
  | fuel + 1, pos =>
    if pos + (depth + 1) * 80 ≤ n then
      match locate (fun i => snap (pos + i)) (n - pos) 80 depth ((depth + 1) * 80) with
      | none => coarse snap n depth retry la fuel (pos + retry * 80)
      | some (o, sync) =>
        let run := track snap n la sync (n + 1) (pos + o)
        run.1 ++ coarse snap n depth retry la fuel run.2
    else []

/-- The positions of the frames RESYNC_CORE confirms in the `n` symbols of `snap`, in order (40_sync_detector.md R156). -/
def resyncFrames (snap : Nat → Byte) (n depth retry la : Nat) : List Nat := coarse snap n depth retry la (n + 1) 0

/-- The 72 data symbols of the frame at p (40_sync_detector.md R154 (b)). -/
def frameData (snap : Nat → Byte) (p : Nat) : List Byte := (List.range 72).map fun j => snap (p + 8 + j)

/-- The compacted output of RESYNC_CORE on the region (src, n) of `s` (40_sync_detector.md R156): the confirmed frames' data, read from the
snapshot (R151). Its length is rp. -/
def State.compacted (s : State) : List Byte :=
  (resyncFrames (s.sym s.src) s.n s.acqDepth s.retry s.lookahead).flatMap (frameData (s.sym s.src))

/-- RESYNC_CORE's effect (40_sync_detector.md R156): the compacted output stands at src, and the result is reported. -/
def State.resynchronized (s : State) : State :=
  ({ s with mem := s.mem.writeBytes s.src s.compacted }).reportLength s.compacted.length

/-- RESYNC (40_sync_detector.md R156). -/
def execResync (s : State) : Host.Outcome State Fault Refusal :=
  if s.retry = 0 then raise .badCfg s
  else if ¬ RegionValid s.symMemSize s.src s.n then raise .range s
  else completeWith (if s.compacted.length = 0 then .noSync else .ok) s.resynchronized

end Sys2Proof.Machine
end

