-- ==== Sys2Proof/Machine/Deinterleaver.lean ====
section
/-! DEFINITION. The convolutional de-interleaver (41_deinterleaver.md): DEINTERLEAVE and the combined RESYNC_DEINTERLEAVE. -/

namespace Sys2Proof.Machine

/-- `DSRC(i)`: the source index of destination index i (41_deinterleaver.md R180). -/
def dsrc (i : Nat) : Nat := i + i % Config.intlvB * Config.intlvL

/-- `DI(R, len)[i]` (41_deinterleaver.md R180): 0x00 where the source index is out of bounds. -/
def deinterleavedAt (R : Nat → Byte) (len i : Nat) : Byte := if dsrc i < len then R (dsrc i) else 0x00

/-- `DI(R, len)`: the whole output (41_deinterleaver.md R180). -/
def deinterleaved (R : Nat → Byte) (len : Nat) : List Byte := (List.range len).map (deinterleavedAt R len)

/-- `MAXOUT(n)` (41_deinterleaver.md R184). -/
def maxOut (n : Nat) : Nat := 72 * (n / 80)

/-- DEINTERLEAVE (41_deinterleaver.md R181). FOUND = 0 is among its "Flags written" (log 18). -/
def execDeinterleave (s : State) : Host.Outcome State Fault Refusal :=
  if ¬ RegionValid s.symMemSize s.src s.n then raise .range s
  else if ¬ RegionValid s.symMemSize s.dst s.n then raise .range s
  else if RegionOverlap s.src s.n s.dst s.n then raise .overlap s
  else
    completeWith .ok
      { s with
        mem := s.mem.writeBytes s.dst (deinterleaved (s.sym s.src) s.n)
        resultLen := BitVec.ofNat 32 s.n
        found := false }

/-- RESYNC_DEINTERLEAVE (41_deinterleaver.md R185). The de-interleave reads the compacted data where RESYNC_CORE left it. -/
def execResyncDeinterleave (s : State) : Host.Outcome State Fault Refusal :=
  if s.retry = 0 then raise .badCfg s
  else if ¬ RegionValid s.symMemSize s.src s.n then raise .range s
  else if ¬ RegionValid s.symMemSize s.dst (maxOut s.n) then raise .range s
  else if RegionOverlap s.src s.n s.dst (maxOut s.n) then raise .overlap s
  else
    let r := s.resynchronized
    let rp := s.compacted.length
    if rp = 0 then completeWith .noSync r
    else if rp ≥ s.n then completeWith .noShrink r
    else completeWith .ok { r with mem := r.mem.writeBytes s.dst (deinterleaved (r.sym s.src) rp) }

end Sys2Proof.Machine
end

