-- ==== Sys2Proof/Machine/SqrtTable.lean ====
section
/-! DEFINITION. The square-root table (42_sqrt_table.md): SQRT_INIT, SQRT_LOOKUP, SQRT_RELEASE. T is a fixed function when the table is READY
and never read otherwise, so the model computes `isqrt n` in place of storing T, as 10_state.md R53 allows (log 12). -/

namespace Sys2Proof.Machine

/-- One more binary digit of a root: from r = isqrt(n div 4), the root of n is 2r or 2r + 1. -/
def isqrtDigit (n r : Nat) : Nat := if (2 * r + 1) * (2 * r + 1) ≤ n then 2 * r + 1 else 2 * r

/-- The root of n by `k` binary digits, exact when n < 4^k. -/
def isqrtDigits : Nat → Nat → Nat
  | 0, _ => 0
  | k + 1, n => isqrtDigit n (isqrtDigits k (n / 4))

/-- `isqrt(n)`, the largest integer r with r·r ≤ n (00_scope.md R13). -/
def isqrt (n : Nat) : Nat := isqrtDigits (n.log2 / 2 + 1) n

/-- `ssqrt(a)` (42_sqrt_table.md R200). Outside |a| ≤ 16384 the spec leaves it undefined and no command evaluates it (log 14). -/
def ssqrt (a : Int) : Int := if 0 ≤ a then isqrt a.natAbs else -isqrt a.natAbs

/-- SQRT_INIT (42_sqrt_table.md R201). -/
def execSqrtInit (s : State) : Host.Outcome State Fault Refusal :=
  if s.tableState ≠ .uninit then raise .tableLifecycle s
  else completeWith .ok { s with tableState := .ready }

/-- SQRT_LOOKUP (42_sqrt_table.md R202). -/
def execSqrtLookup (s : State) : Host.Outcome State Fault Refusal :=
  if s.tableState ≠ .ready then raise .tableNotReady s
  else if s.sqrtOperand < -(Config.sqrtMax : Int) ∨ s.sqrtOperand > (Config.sqrtMax : Int) then raise .sqrtArgRange s
  else completeWith .ok { s with sqrtRes := BitVec.ofInt 32 (ssqrt s.sqrtOperand) }

/-- SQRT_RELEASE (42_sqrt_table.md R203). -/
def execSqrtRelease (s : State) : Host.Outcome State Fault Refusal :=
  if s.tableState ≠ .ready then raise .tableLifecycle s
  else completeWith .ok { s with tableState := .released }

end Sys2Proof.Machine
end

