-- ==== Sys2Proof/Machine/Differential.lean ====
section
/-! DEFINITION. The differential phase decoder (43_differential.md): DIFF_DECODE. -/

namespace Sys2Proof.Machine

/-- `STORE(v, sat)` (43_differential.md R220, R222): +128 saturates to 0x7F when DIFF_SAT = 1, every other value is stored as u8(v). -/
def diffStore (v : Int) (sat : Bool) : Byte := if v = 128 ∧ sat then 0x7F else u8 v

/-- The in-phase output byte for the raw byte `a` and the previous raw byte `pi` (43_differential.md R220). -/
def diffOutI (sat : Bool) (a pi : Byte) : Byte := diffStore (ssqrt (s8 a * s8 pi)) sat

/-- The quadrature output byte, "sign inverted", for the raw byte `b` and the previous raw byte `pq` (43_differential.md R220). -/
def diffOutQ (sat : Bool) (b pq : Byte) : Byte := diffStore (ssqrt (-(s8 b * s8 pq))) sat

/-- The decoded bytes of the raw pairs `raw`, from the previous pair (pi, pq); each pair's raw bytes become the next previous pair
(43_differential.md R220). -/
def diffBytes (sat : Bool) : Byte → Byte → List Byte → List Byte
  | pi, pq, a :: b :: raw => diffOutI sat a pi :: diffOutQ sat b pq :: diffBytes sat a b raw
  | _, _, _ => []

/-- The last raw pair of `raw`, or the previous pair where there is none: what is carried out (43_differential.md R220). -/
def diffCarry : Byte → Byte → List Byte → Byte × Byte
  | _, _, a :: b :: raw => diffCarry a b raw
  | pi, pq, _ => (pi, pq)

/-- DIFF_DECODE (43_differential.md R220). Every raw byte is read before any byte of its pair is written, so the raw bytes are those of the
start state (20_memory.md R100; log 13). -/
def execDiffDecode (s : State) : Host.Outcome State Fault Refusal :=
  if s.tableState ≠ .ready then raise .tableNotReady s
  else if s.n < 2 ∨ s.n % 2 ≠ 0 then raise .badLength s
  else if ¬ RegionValid s.symMemSize s.src s.n then raise .range s
  else
    let raw := s.mem.readBytes s.src s.n
    completeWith .ok
      { s with
        mem := s.mem.writeBytes s.src (diffBytes s.ctrlDiffSat s.diffPrevI s.diffPrevQ raw)
        diffPrevI := (diffCarry s.diffPrevI s.diffPrevQ raw).1
        diffPrevQ := (diffCarry s.diffPrevI s.diffPrevQ raw).2 }

end Sys2Proof.Machine
end

