-- ==== Sys2Proof/Syntax.lean ====
section
/-! DEFINITION. The commands of SMD command set, version 1: one constructor per row of spec/opcode_table.json. No command word
holds an operand (30_encoding.md R110), so no constructor has a field. -/

namespace Sys2Proof

/-- The nine commands of 30_encoding.md R111. -/
inductive Instr where
  | nop
  | sqrtInit
  | sqrtRelease
  | sqrtLookup
  | diffDecode
  | syncLocate
  | resync
  | deinterleave
  | resyncDeinterleave
  deriving DecidableEq, Repr

/-- The two grounds on which a command word is illegal (30_encoding.md R113). -/
inductive IllegalWord where
  /-- Bits 31:8 are not all zero. -/
  | reservedBitsSet
  /-- Bits 7:0 are no opcode of R111's table. -/
  | undefinedOpcode
  deriving DecidableEq, Repr

/-- What a command word selects: a command, or ILLEGAL on a named ground (30_encoding.md R111). -/
inductive Decoded where
  | command (i : Instr)
  | illegal (why : IllegalWord)
  deriving DecidableEq, Repr

end Sys2Proof
end

