-- ==== Sys2Proof/Machine/Dispatch.lean ====
section
/-! DEFINITION. One arm per command: the engine's decoded command runs that command's rule (44_host_interface.md R246). -/

namespace Sys2Proof.Machine

def exec (i : Instr) (s : State) : Host.Outcome State Fault Refusal :=
  match i with
  | .nop => Sys2Proof.Machine.execNop s
  | .sqrtInit => Sys2Proof.Machine.execSqrtInit s
  | .sqrtRelease => Sys2Proof.Machine.execSqrtRelease s
  | .sqrtLookup => Sys2Proof.Machine.execSqrtLookup s
  | .diffDecode => Sys2Proof.Machine.execDiffDecode s
  | .syncLocate => Sys2Proof.Machine.execSyncLocate s
  | .resync => Sys2Proof.Machine.execResync s
  | .deinterleave => Sys2Proof.Machine.execDeinterleave s
  | .resyncDeinterleave => Sys2Proof.Machine.execResyncDeinterleave s

end Sys2Proof.Machine
end

