-- ==== Sys2Proof/WellFormed.lean ====
section
/-! DEFINITION. The checks on terms that types alone do not make: which command words are legal (30_encoding.md R113) and which
sizes the symbol memory may have (00_scope.md R10). An `Instr` has no operand (R110), so every `Instr` is well-formed. -/

namespace Sys2Proof.WellFormed

/-- The reserved field RSVD = w[31:8] is zero (30_encoding.md R110). -/
def reservedClear (w : Word) : Bool := w.toNat / 256 == 0

/-- OPCODE = w[7:0] lies outside the undefined ranges 0x04–0x07, 0x09–0x0F, 0x12–0x17, 0x1A–0xFF (30_encoding.md R113). -/
def opcodeDefined (w : Word) : Bool :=
  let op := w.toNat % 256
  !((0x04 ≤ op && op ≤ 0x07) || (0x09 ≤ op && op ≤ 0x0F) || (0x12 ≤ op && op ≤ 0x17) || 0x1A ≤ op)

/-- A legal command word: neither ground of 30_encoding.md R113 applies. -/
def commandWord (w : Word) : Bool := reservedClear w && opcodeDefined w

/-- A legal SYM_MEM_SIZE: 1 ≤ SYM_MEM_SIZE ≤ 2^32 (00_scope.md R10). -/
def symMemSize (n : Nat) : Bool := 1 ≤ n && n ≤ Config.maxSymMemSize

end Sys2Proof.WellFormed
end

