-- ==== Sys2Proof/Decode.lean ====
section
/-! DEFINITION. The decoder, total on every 32-bit command word and rejecting by name, and the encoder, each written from
30_encoding.md R110, R111 and R113. -/

namespace Sys2Proof

/-- OPCODE: bits 7:0 of a command word (30_encoding.md R110). -/
def opcodeField (w : Word) : Byte := w.extractLsb' 0 8

/-- RSVD: bits 31:8 of a command word (30_encoding.md R110). -/
def reservedField (w : Word) : BitVec 24 := w.extractLsb' 8 24

/-- The opcode map read from opcode to mnemonic (30_encoding.md R111). -/
def decodeOpcode (op : Byte) : Option Instr :=
  match op.toNat with
  | 0x00 => some .nop
  | 0x01 => some .sqrtInit
  | 0x02 => some .sqrtRelease
  | 0x03 => some .sqrtLookup
  | 0x08 => some .diffDecode
  | 0x10 => some .syncLocate
  | 0x11 => some .resync
  | 0x18 => some .deinterleave
  | 0x19 => some .resyncDeinterleave
  | _ => none

/-- The command a word selects (30_encoding.md R111): the mnemonic of OPCODE if RSVD is zero and OPCODE is in the table, ILLEGAL
otherwise (R113). -/
def decode (w : Word) : Decoded :=
  if reservedField w ≠ 0 then .illegal .reservedBitsSet
  else
    match decodeOpcode (opcodeField w) with
    | some i => .command i
    | none => .illegal .undefinedOpcode

/-- The opcode map read from mnemonic to opcode (30_encoding.md R111). -/
def Instr.opcode : Instr → Byte
  | .nop => 0x00
  | .sqrtInit => 0x01
  | .sqrtRelease => 0x02
  | .sqrtLookup => 0x03
  | .diffDecode => 0x08
  | .syncLocate => 0x10
  | .resync => 0x11
  | .deinterleave => 0x18
  | .resyncDeinterleave => 0x19

/-- The command word of a command: OPCODE in bits 7:0 and RSVD zero (30_encoding.md R110). -/
def encode (i : Instr) : Word := (0 : BitVec 24) ++ i.opcode

/-- What the decoder reads from the instruction whose bits are `w`, numbered as spec/opcode_table.json numbers them. A command is
one 32-bit word (30_encoding.md R114), so more than 32 bits are no command, and bits above `nbits` are zero. -/
def decodeTableWord (nbits w : Nat) : Option Instr :=
  if nbits ≤ 32 then
    match decode (BitVec.ofNat 32 (w % 2 ^ nbits)) with
    | .command i => some i
    | .illegal _ => none
  else none

end Sys2Proof
end

