-- ==== Sys2Proof/Machine/HostPort.lean ====
section
/-! DEFINITION. The host's side: the register map and its reads and writes (10_state.md R32, 44_host_interface.md R240, R241), symbol-memory
accesses (R242), the host-protocol fault (60_exceptions.md R270), the reset input (70_reset_and_hazards.md R290), one host step, and the
host-program notation (30_encoding.md R115, R116). -/

namespace Sys2Proof.Machine

/-- The sixteen registers of 10_state.md R32. -/
inductive Reg where
  | cmd | status | ctrl | srcBase | srcLen | dstBase | locStride | locDepth
  | locWindow | resyncCfg | syncOffset | syncByte | resultLen | diffPrev | sqrtArg | sqrtRes
  deriving DecidableEq, Repr

/-- A register's offset (10_state.md R32). -/
def Reg.offset : Reg → BitVec 8
  | .cmd => 0x00
  | .status => 0x04
  | .ctrl => 0x08
  | .srcBase => 0x0C
  | .srcLen => 0x10
  | .dstBase => 0x14
  | .locStride => 0x18
  | .locDepth => 0x1C
  | .locWindow => 0x20
  | .resyncCfg => 0x24
  | .syncOffset => 0x28
  | .syncByte => 0x2C
  | .resultLen => 0x30
  | .diffPrev => 0x34
  | .sqrtArg => 0x38
  | .sqrtRes => 0x3C

/-- The register at an offset; offsets 0x40 to 0xFC hold none (10_state.md R32, R50). -/
def Reg.atOffset (off : BitVec 8) : Option Reg :=
  match off.toNat with
  | 0x00 => some .cmd
  | 0x04 => some .status
  | 0x08 => some .ctrl
  | 0x0C => some .srcBase
  | 0x10 => some .srcLen
  | 0x14 => some .dstBase
  | 0x18 => some .locStride
  | 0x1C => some .locDepth
  | 0x20 => some .locWindow
  | 0x24 => some .resyncCfg
  | 0x28 => some .syncOffset
  | 0x2C => some .syncByte
  | 0x30 => some .resultLen
  | 0x34 => some .diffPrev
  | 0x38 => some .sqrtArg
  | 0x3C => some .sqrtRes
  | _ => none

/-- `reg[NAME]`: a register's value as the host reads it, reserved bits 0 (44_host_interface.md R240; 10_state.md R51); CMD reads 0 (R33). -/
def State.readReg (s : State) : Reg → Word
  | .cmd => 0
  | .status => s.statusWord
  | .ctrl => (0 : BitVec 31) ++ BitVec.ofBool s.ctrlDiffSat
  | .srcBase => s.srcBase
  | .srcLen => s.srcLen
  | .dstBase => s.dstBase
  | .locStride => s.locStride
  | .locDepth => s.locDepth
  | .locWindow => s.locWindow
  | .resyncCfg => s.resyncCfg
  | .syncOffset => s.syncOffset
  | .syncByte => (0 : BitVec 24) ++ s.syncByte
  | .resultLen => s.resultLen
  | .diffPrev => (0 : BitVec 16) ++ s.diffPrevQ ++ s.diffPrevI
  | .sqrtArg => s.sqrtArg
  | .sqrtRes => s.sqrtRes

/-- A host write of v to a register while BUSY = 0 (44_host_interface.md R241): the defined fields of an RW register (10_state.md R51), nothing
for an RO register (R52), a launch for CMD (44_host_interface.md R244). -/
def State.writeReg (s : State) (v : Word) : Reg → State
  | .cmd => s.launch v
  | .status => s
  | .ctrl => { s with ctrlDiffSat := v.getLsbD 0 }
  | .srcBase => { s with srcBase := v }
  | .srcLen => { s with srcLen := v }
  | .dstBase => { s with dstBase := v }
  | .locStride => { s with locStride := v }
  | .locDepth => { s with locDepth := v }
  | .locWindow => { s with locWindow := v }
  | .resyncCfg => { s with resyncCfg := v }
  | .syncOffset => s
  | .syncByte => s
  | .resultLen => s
  | .diffPrev => { s with diffPrevI := v.extractLsb' 0 8, diffPrevQ := v.extractLsb' 8 8 }
  | .sqrtArg => { s with sqrtArg := v }
  | .sqrtRes => s

/-- The value a read of an offset returns: 0 where there is no register (10_state.md R50). -/
def State.readOffset (s : State) (off : BitVec 8) : Word :=
  match Reg.atOffset off with
  | some r => s.readReg r
  | none => 0

/-- The effect of a write to an offset: none where there is no register (10_state.md R50). -/
def State.writeOffset (s : State) (off : BitVec 8) (v : Word) : State :=
  match Reg.atOffset off with
  | some r => s.writeReg v r
  | none => s

/-- A register access has a meaning only as a 32-bit access at a 4-aligned offset (20_memory.md R86). -/
abbrev RegAccessFormed (off : BitVec 8) (width : Nat) : Prop := width = 32 ∧ off.toNat % 4 = 0

/-- The bytes of a symbol-memory access (20_memory.md R86). -/
def SymWidth.bytes : SymWidth → Nat
  | .one => 1
  | .two => 2
  | .four => 4

/-- Bytes to an integer, the first least significant: little-endian (20_memory.md R85). -/
def littleEndian : List Byte → Nat
  | [] => 0
  | b :: bs => b.toNat + 256 * littleEndian bs

/-- The `n` low bytes of a value, the least significant first (20_memory.md R85). -/
def bytesOf : Nat → Nat → List Byte
  | 0, _ => []
  | n + 1, v => BitVec.ofNat 8 v :: bytesOf n (v / 256)

/-- The host receives a value from its read (log 5). No state of the block changes: "A read changes no state" (44_host_interface.md R240). -/
def State.receive (s : State) (v : Word) : State := { s with hostReceived := v :: s.hostReceived }

/-- HOST_FAULT ← true (60_exceptions.md R270). -/
def State.markHostFault (s : State) : State := { s with hostFault := true }

/-- The regions the pending command could write, as (base, length) (70_reset_and_hazards.md R290). -/
def State.abandonedRegions (s : State) : List (Nat × Nat) :=
  match s.pending with
  | none => []
  | some w =>
    match decode w with
    | .command .diffDecode => [(s.src, s.n)]
    | .command .resync => [(s.src, s.n)]
    | .command .deinterleave => [(s.dst, s.n)]
    | .command .resyncDeinterleave => [(s.src, s.n), (s.dst, maxOut s.n)]
    | .command .nop => []
    | .command .sqrtInit => []
    | .command .sqrtRelease => []
    | .command .sqrtLookup => []
    | .command .syncLocate => []
    | .illegal _ => []

/-- The memory in which the regions `rs`, cut to the `size` bytes of the symbol memory, hold the free values of draw `d`
(70_reset_and_hazards.md R290; log 8). -/
def Memory.scrambleRegions (m : Memory) (d size : Nat) : List (Nat × Nat) → Memory
  | [] => m
  | r :: rs => (m.scramble d r.1 (min (r.1 + r.2) size - r.1)).scrambleRegions d size rs

/-- The reset input (70_reset_and_hazards.md R290, R291): every register, TABLE_STATE and the engine at 10_state.md R60's values, the pending
command abandoned, its write regions unspecified, the rest of symbol memory kept. SYM_MEM_SIZE, HOST_FAULT and the host itself stay
(log 9). -/
def State.resetInput (s : State) : State :=
  { State.reset with
    mem := s.mem.scrambleRegions s.draws s.symMemSize s.abandonedRegions
    draws := s.draws + 1
    symMemSize := s.symMemSize
    hostFault := s.hostFault
    hostProgram := s.hostProgram
    schedule := s.schedule
    hostReceived := s.hostReceived }

/-- A host register read (44_host_interface.md R240). While BUSY = 1 only STATUS may be read (20_memory.md R95). -/
def State.hostRegRead (s : State) (off : BitVec 8) (width : Nat) : State :=
  if ¬ RegAccessFormed off width then s.markHostFault
  else if s.busy ∧ off ≠ Reg.status.offset then s.markHostFault
  else s.receive (s.readOffset off)

/-- A host register write (44_host_interface.md R241). None may be made while BUSY = 1 (20_memory.md R95). -/
def State.hostRegWrite (s : State) (off : BitVec 8) (width : Nat) (v : Word) : State :=
  if ¬ RegAccessFormed off width then s.markHostFault
  else if s.busy then s.markHostFault
  else s.writeOffset off v

/-- A host read of symbol memory (44_host_interface.md R242; 20_memory.md R86): the host receives the little-endian value. -/
def State.hostSymRead (s : State) (a : Nat) (w : SymWidth) : State :=
  if s.busy ∨ ¬ a + w.bytes ≤ s.symMemSize then s.markHostFault
  else s.receive (BitVec.ofNat 32 (littleEndian (s.mem.readBytes a w.bytes)))

/-- A host write of symbol memory (44_host_interface.md R242; 20_memory.md R86): the low bytes of v, little-endian. A wide access that leaves
the memory writes no byte (log 7). -/
def State.hostSymWrite (s : State) (a : Nat) (w : SymWidth) (v : Word) : State :=
  if s.busy ∨ ¬ a + w.bytes ≤ s.symMemSize then s.markHostFault
  else { s with mem := s.mem.writeBytes a (bytesOf w.bytes v.toNat) }

/-- One POLL iteration: a read of STATUS, repeated until BUSY (bit 0) of the value read is 0 (30_encoding.md R116; log 21). -/
def State.hostPoll (s : State) (rest : List HostOp) : State :=
  let t := s.receive s.statusWord
  if s.statusWord.getLsbD 0 then t else { t with hostProgram := rest }

/-- One host step: its program's next entry (44_host_interface.md R243). -/
def State.hostStep (s : State) : State :=
  match s.hostProgram with
  | [] => s
  | .regRead off w :: rest => { s with hostProgram := rest }.hostRegRead off w
  | .regWrite off w v :: rest => { s with hostProgram := rest }.hostRegWrite off w v
  | .symRead a w :: rest => { s with hostProgram := rest }.hostSymRead a w
  | .symWrite a w v :: rest => { s with hostProgram := rest }.hostSymWrite a w v
  | .poll :: rest => s.hostPoll rest
  | .reset :: rest => { s with hostProgram := rest }.resetInput

/-- Who moves next (44_host_interface.md R243). While BUSY = 0 the engine has no step (10_state.md R31); while BUSY = 1 and the host has a
transaction left, `schedule` chooses, and the engine moves when the schedule has run out (log 3). -/
def State.mover (s : State) : Option Agent :=
  match s.pending, s.hostProgram with
  | none, [] => none
  | none, _ :: _ => some .host
  | some _, [] => some .engine
  | some _, _ :: _ => some (s.schedule.headD .engine)

/-- The schedule's next entry is used up by a step taken while BUSY = 1 (log 3). -/
def State.takeTurn (s : State) : State := { s with schedule := if s.busy then s.schedule.tail else s.schedule }

/-- `WR <REG>, <v32>` (30_encoding.md R115). -/
def HostOp.wr (r : Reg) (v : Word) : HostOp := .regWrite r.offset 32 v

/-- `RD <REG>` (30_encoding.md R115). -/
def HostOp.rd (r : Reg) : HostOp := .regRead r.offset 32

/-- `WRB <addr>, <b>` (30_encoding.md R115). -/
def HostOp.wrb (a : Nat) (b : Byte) : HostOp := .symWrite a .one (b.setWidth 32)

/-- `RDB <addr>` (30_encoding.md R115). -/
def HostOp.rdb (a : Nat) : HostOp := .symRead a .one

/-- `FILL <addr>, [b0, b1, …]` (30_encoding.md R115). -/
def HostOp.fill : Nat → List Byte → List HostOp
  | _, [] => []
  | a, b :: bs => .wrb a b :: HostOp.fill (a + 1) bs

/-- `CMD <MNEMONIC>` (30_encoding.md R116). -/
def HostOp.command (i : Instr) : HostOp := .wr .cmd (encode i)

/-- `RUN <MNEMONIC>`: CMD, then POLL (30_encoding.md R116). -/
def HostOp.run (i : Instr) : List HostOp := [.command i, .poll]

/-- `SETPREV <i>, <q>` (30_encoding.md R116). -/
def HostOp.setPrev (i q : Int) : HostOp := .wr .diffPrev ((0 : BitVec 16) ++ u8 q ++ u8 i)

/-- `SETCFG <acq>, <retry>, <la>` (30_encoding.md R116). Where the sum does not fit 32 bits R116 is silent, and the model keeps its low 32 bits:
DESIGN CHOICE (log 22, unsafe). -/
def HostOp.setCfg (acq retry la : Nat) : HostOp :=
  .wr .resyncCfg (BitVec.ofNat 32 ((la <<< 16) + (retry <<< 8) + acq))

end Sys2Proof.Machine
end

