-- ==== Sys2Proof/Machine/Engine.lean ====
section
/-! DEFINITION. The engine's step: decode the pending command and run its rule to the end (44_host_interface.md R246, R247). -/

namespace Sys2Proof.Machine

/-- The engine's one step (44_host_interface.md R246). An illegal word performs `raise Error(ILLEGAL_CMD)` (R247). Without a pending command
the engine has no step (10_state.md R31). -/
def engineStep (s : State) : Host.Outcome State Fault Refusal :=
  match s.pending with
  | none => .next s
  | some w =>
    match decode w with
    | .command i => exec i s
    | .illegal _ => execIllegal s

end Sys2Proof.Machine
end

