-- ==== Sys2Proof/Machine/Step.lean ====
section
/-! DEFINITION. One step of the machine: one host transaction or the one engine step (44_host_interface.md R243). -/

namespace Sys2Proof.Machine

/-- One step (44_host_interface.md R243). With HOST_FAULT set the run has no meaning (R248; log 4). When neither agent has a step the block keeps
all its state (60_exceptions.md R277; log 6). -/
def step (s : State) : Host.Outcome State Fault Refusal :=
  if s.hostFault then .fault .hostProtocol
  else
    match s.mover with
    | none => .next s
    | some .host => .next s.takeTurn.hostStep
    | some .engine => engineStep s.takeTurn

/-- `s` with the command word `w` launched (44_host_interface.md R244) and the engine's turn next, so that the very next step runs that
command. The block fetches nothing (20_memory.md R98): the launch is what takes a command's word to the engine (log 15). -/
def State.withFetchWord (s : State) (nbits w : Nat) : State :=
  { s.launch (BitVec.ofNat 32 (w % 2 ^ nbits)) with schedule := .engine :: s.schedule }

end Sys2Proof.Machine
end

