-- ==== Sys2Proof/Safety.lean ====
section
/-! DEFINITION. The terms claims are made in: the invariant of every state a run reaches, the block's own part of a state, and the spec's
search, resynchronizer and in-place loops written as relations and loops of their own, without the model's fuel, snapshot or bulk write,
so that a statement can compare the two. -/

namespace Sys2Proof.Machine

/-- What holds of every state a run from power-on reaches. -/
structure State.Inv (s : State) : Prop where
  /-- Symbol memory has its one canonical form (log 2). -/
  memCanonical : s.mem.wf
  /-- Symbol memory holds addresses 0 to SYM_MEM_SIZE−1 only (20_memory.md R80, R87). -/
  memInside : ∀ c ∈ s.mem, c.1 < s.symMemSize
  /-- 1 ≤ SYM_MEM_SIZE ≤ 2^32 (00_scope.md R10). -/
  sizeLegal : WellFormed.symMemSize s.symMemSize = true
  /-- After a launch and before completion, DONE = FOUND = ERR = 0 and OUTCOME = 0 (10_state.md R35). -/
  busyFlags : s.busy → s.done = false ∧ s.found = false ∧ s.err = false ∧ s.outcome = .ok
  /-- LAST_OP holds bits 7:0 of the pending word (44_host_interface.md R244). -/
  busyLastOp : ∀ w, s.pending = some w → s.lastOp = w.extractLsb' 0 8
  /-- ERR is set exactly when ERRCODE is not 0 (60_exceptions.md R261, R263). -/
  errHasCode : s.err = true ↔ s.errCode ≠ .noError
  /-- ERR implies ERR_STICKY (60_exceptions.md R263). -/
  errSticks : s.err → s.errSticky
  /-- "A command that raised an error has OUTCOME = OK" (60_exceptions.md R267), and FOUND = 0 from its launch. -/
  errPlain : s.err → s.found = false ∧ s.outcome = .ok
  /-- FOUND = 1 only with OUTCOME = OK (10_state.md R34; 60_exceptions.md R267). -/
  foundOk : s.found → s.outcome = .ok
  /-- "RESYNC_DEINTERLEAVE never completes with NO_SHRINK" (41_deinterleaver.md R186). -/
  neverNoShrink : s.outcome ≠ .noShrink
  /-- SQRT_RES holds a value in [−128, 128] (10_state.md R49). -/
  sqrtResRange : -128 ≤ s.sqrtRes.toInt ∧ s.sqrtRes.toInt ≤ 128
  /-- RESULT_LEN is the length of a region of symbol memory (10_state.md R46). -/
  resultFits : s.resultLen.toNat ≤ s.symMemSize
  /-- Idle with DONE = 0 means that nothing was launched since reset: STATUS reads 0 (10_state.md R34, R60). -/
  freshStatus : s.busy = false → s.done = false → s.statusWord = 0

/-- The block's own part of a state: the host's program, its schedule and what it has read are put aside. -/
def State.block (s : State) : State := { s with hostProgram := [], schedule := [], hostReceived := [] }

/-- Byte `b` is the hard-decision byte at p, bit by bit: bit j is 1 iff the symbol at p + j is below 128 (40_sync_detector.md R140, R141). -/
def ShowsByte (X : Nat → Byte) (p : Nat) (b : Byte) : Prop :=
  ∀ j, j < 8 → (b.getLsbD j = true ↔ (X (p + j)).toNat < 128)

/-- "An offset o qualifies when o + stride·depth + 8 ≤ |X| and all depth confirmations match" (40_sync_detector.md R142), with the byte b. -/
def Qualifies (X : Nat → Byte) (len stride depth o : Nat) (b : Byte) : Prop :=
  o + stride * depth + 8 ≤ len ∧ ShowsByte X o b ∧ ∀ k, 1 ≤ k → k ≤ depth → ShowsByte X (o + k * stride) b

/-- Offset o with byte b is the first qualifying candidate of the search (40_sync_detector.md R142, R145). -/
def FirstQualifying (X : Nat → Byte) (len stride depth window o : Nat) (b : Byte) : Prop :=
  o + stride * depth < window ∧ Qualifies X len stride depth o b ∧
    ∀ q, q < o → ∀ c, ¬ Qualifies X len stride depth q c

/-- No candidate of the search qualifies (40_sync_detector.md R142, R145). -/
def NoneQualifies (X : Nat → Byte) (len stride depth window : Nat) : Prop :=
  ∀ o, o + stride * depth < window → ∀ c, ¬ Qualifies X len stride depth o c

/-- Tracking with the held byte b from cursor `pos` (40_sync_detector.md R154, R155): the confirmed frames, and the cursor where it ends. -/
inductive Tracking (X : Nat → Byte) (n la : Nat) (b : Byte) : Nat → List Nat → Nat → Prop
  /-- "When pos + 80 > n, the run ends". -/
  | noRoom {pos : Nat} : pos + 80 > n → Tracking X n la b pos [] pos
  /-- Neither the frame at pos nor one within the look-ahead matches: "tracking ends with pos unchanged". -/
  | lost {pos : Nat} : pos + 80 ≤ n →
      (∀ k, k ≤ la → pos + k * 80 + 80 ≤ n → ¬ ShowsByte X (pos + k * 80) b) → Tracking X n la b pos [] pos
  /-- The first matching frame, k periods on, is confirmed, and the cursor moves past it. -/
  | confirmed {pos k : Nat} {fs : List Nat} {e : Nat} : k ≤ la → pos + k * 80 + 80 ≤ n →
      ShowsByte X (pos + k * 80) b → (∀ q, q < k → ¬ ShowsByte X (pos + q * 80) b) →
      Tracking X n la b (pos + k * 80 + 80) fs e → Tracking X n la b pos ((pos + k * 80) :: fs) e

/-- Coarse acquisition from cursor `pos` (40_sync_detector.md R152, R153), with the confirmed frames of the whole run. -/
inductive CoarseRun (X : Nat → Byte) (n depth retry la : Nat) : Nat → List Nat → Prop
  /-- "When the guard fails, the run ends". -/
  | ends {pos : Nat} : pos + (depth + 1) * 80 > n → CoarseRun X n depth retry la pos []
  /-- "If the result is not found, then pos <- pos + retry · 80 and the step repeats". -/
  | retried {pos : Nat} {fs : List Nat} : pos + (depth + 1) * 80 ≤ n →
      NoneQualifies (fun i => X (pos + i)) (n - pos) 80 depth ((depth + 1) * 80) →
      CoarseRun X n depth retry la (pos + retry * 80) fs → CoarseRun X n depth retry la pos fs
  /-- Acquisition at pos + o with byte b, one sync run, and coarse acquisition again from where it ended. -/
  | acquired {pos o : Nat} {b : Byte} {fs gs : List Nat} {e : Nat} : pos + (depth + 1) * 80 ≤ n →
      FirstQualifying (fun i => X (pos + i)) (n - pos) 80 depth ((depth + 1) * 80) o b →
      Tracking X n la b (pos + o) fs e → CoarseRun X n depth retry la e gs →
      CoarseRun X n depth retry la pos (fs ++ gs)

/-- The copy of one frame in place (40_sync_detector.md R154 (b), R158): `count` bytes from j on, in increasing j, each read from the memory as it
stands. -/
def copyInPlace (src rp pos : Nat) : Nat → Nat → Memory → Memory
  | 0, _, m => m
  | count + 1, j, m => copyInPlace src rp pos count (j + 1) (m.write (src + rp + j) (m.read (src + (pos + 8 + j))))

/-- Tracking that works in place, without a snapshot (40_sync_detector.md R158): the memory, rp and pos where it ends. -/
def trackInPlace (src n la : Nat) (sync : Byte) : Nat → Memory → Nat → Nat → Memory × Nat × Nat
  | 0, m, rp, pos => (m, rp, pos)
  | fuel + 1, m, rp, pos =>
    if pos + 80 ≤ n then
      match confirm (fun i => m.read (src + i)) n la sync pos with
      | none => (m, rp, pos)
      | some k =>
        trackInPlace src n la sync fuel (copyInPlace src rp (pos + k * 80) 72 0 m) (rp + 72) (pos + k * 80 + 80)
    else (m, rp, pos)

/-- RESYNC_CORE in place, "Reading Sym directly in place of Snap" (40_sync_detector.md R158): the memory and rp at its end. -/
def resyncInPlace (src n depth retry la : Nat) : Nat → Memory → Nat → Nat → Memory × Nat
  | 0, m, rp, _ => (m, rp)
  | fuel + 1, m, rp, pos =>
    if pos + (depth + 1) * 80 ≤ n then
      match locate (fun i => m.read (src + (pos + i))) (n - pos) 80 depth ((depth + 1) * 80) with
      | none => resyncInPlace src n depth retry la fuel m rp (pos + retry * 80)
      | some (o, sync) =>
        let run := trackInPlace src n la sync (n + 1) m rp (pos + o)
        resyncInPlace src n depth retry la fuel run.1 run.2.1 run.2.2
    else (m, rp)

/-- DIFF_DECODE's loop as its rule writes it (43_differential.md R220), each pair read from the memory as it stands and then overwritten: the memory
and the previous pair after `pairs` pairs from address `a` on. -/
def diffInPlace (sat : Bool) : Nat → Memory → Byte → Byte → Nat → Memory × Byte × Byte
  | 0, m, pi, pq, _ => (m, pi, pq)
  | pairs + 1, m, pi, pq, a =>
    diffInPlace sat pairs
      ((m.write a (diffOutI sat (m.read a) pi)).write (a + 1) (diffOutQ sat (m.read (a + 1)) pq))
      (m.read a) (m.read (a + 1)) (a + 2)

end Sys2Proof.Machine
end

