-- ==== Sys2Proof/Certificates/Slice0/Obligations.lean ====
section
/-! DEFINITION. The statements for the provers. Each docstring names the rules of spec/ it formalises. A record `{ s with … }` in a conclusion says
the whole frame: every field it does not name is unchanged. -/

open Sys2Proof Sys2Proof.Machine

/-! ### Encoding (30_encoding.md) -/

/-- Words written out from opcode_table.json decode to their commands, and words of each illegal kind are refused by name (R111, R113). -/
def Obligations.WrittenOutWordsDecode : Prop :=
  decode 0b00000000000000000000000000000000 = .command .nop ∧
  decode 0b00000000000000000000000000000001 = .command .sqrtInit ∧
  decode 0b00000000000000000000000000000010 = .command .sqrtRelease ∧
  decode 0b00000000000000000000000000000011 = .command .sqrtLookup ∧
  decode 0b00000000000000000000000000001000 = .command .diffDecode ∧
  decode 0b00000000000000000000000000010000 = .command .syncLocate ∧
  decode 0b00000000000000000000000000010001 = .command .resync ∧
  decode 0b00000000000000000000000000011000 = .command .deinterleave ∧
  decode 0b00000000000000000000000000011001 = .command .resyncDeinterleave ∧
  decode 0x00000104 = .illegal .reservedBitsSet ∧ decode 0x00000007 = .illegal .undefinedOpcode

/-- R111: a word selects the mnemonic of its low byte if its upper 24 bits are zero and the low byte is in the table, and ILLEGAL otherwise. -/
def Obligations.DecodeSelectsByTheOpcodeTable : Prop :=
  ∀ w : Word,
    (∀ i, decode w = .command i ↔
      w.toNat / 256 = 0 ∧
        (w.toNat % 256, i) ∈
          [(0x00, Instr.nop), (0x01, .sqrtInit), (0x02, .sqrtRelease), (0x03, .sqrtLookup), (0x08, .diffDecode),
            (0x10, .syncLocate), (0x11, .resync), (0x18, .deinterleave), (0x19, .resyncDeinterleave)]) ∧
    ((∀ i, decode w ≠ .command i) ↔ ∃ why, decode w = .illegal why)

/-- Decode and encode agree in both directions: a command's word decodes to it, and it is the only word that does (R110). -/
def Obligations.EncodedWordIsTheOnlyOneDecoded : Prop :=
  ∀ (i : Instr) (w : Word), decode w = .command i ↔ w = encode i

/-- R113, R247: launching a word with a bit of 31:8 set, or whose low byte lies in an undefined range, completes with ILLEGAL_CMD and changes only
STATUS, with LAST_OP = w[7:0]; no other word is illegal. -/
def Obligations.IllegalWordRaisesIllegalCmd : Prop :=
  ∀ (s : State) (w : Word), s.hostFault = false →
    let op := w.toNat % 256
    let illegal := w.toNat / 256 ≠ 0 ∨ (0x04 ≤ op ∧ op ≤ 0x07) ∨ (0x09 ≤ op ∧ op ≤ 0x0F) ∨ (0x12 ≤ op ∧ op ≤ 0x17) ∨ 0x1A ≤ op
    (illegal → step (s.withFetchWord 32 w.toNat) = .next
      { s with
        lastOp := BitVec.ofNat 8 op, found := false, err := true, errSticky := true, errCode := .illegalCmd, outcome := .ok,
        pending := none, done := true }) ∧
    (¬ illegal → ∃ i, decode w = .command i)

/-! ### Steps and the host's side (44_host_interface.md) -/

/-- A step at a state whose turn is the engine's runs the decoded pending command; around it only the schedule's entry is used up (R246). -/
def Obligations.EngineTurnRunsThePendingCommand : Prop :=
  ∀ (s : State) (w : Word) (i : Instr), s.hostFault = false → s.pending = some w → s.mover = some .engine →
    decode w = .command i → step s = exec i { s with schedule := s.schedule.tail }

/-- With the launch and the turn that `withFetchWord` gives the engine (the model's own choice, log 15: 44_host_interface.md R243 leaves the order of host and
engine free), the next step runs the launched command on the state R244's launch leaves. -/
def Obligations.LaunchedCommandRunsNext : Prop :=
  ∀ (s : State) (i : Instr), s.hostFault = false →
    step (s.withFetchWord 32 (encode i).toNat) = exec i
      { s with
        lastOp := i.opcode, pending := some (encode i), done := false, found := false, err := false, errCode := .noError,
        outcome := .ok }

/-- R244: the step in which the host writes v to CMD while BUSY = 0. -/
def Obligations.CmdWriteLaunches : Prop :=
  ∀ (s : State) (v : Word) (rest : List HostOp), s.hostFault = false → s.pending = none →
    s.hostProgram = .regWrite 0x00 32 v :: rest →
    step s = .next
      { s with
        hostProgram := rest, lastOp := v.extractLsb' 0 8, pending := some v, done := false, found := false, err := false,
        errCode := .noError, outcome := .ok }

/-- The model's reading (log 6, DEDUCED from 10_state.md R31 and 60_exceptions.md R277): with no command pending and no transaction left the block keeps
all its state. -/
def Obligations.IdleMachineKeepsItsState : Prop :=
  ∀ s : State, s.hostFault = false → s.pending = none → s.hostProgram = [] → step s = .next s

/-- Every step of a run that has a meaning answers a next state: "the engine step always exists" (R246). That a set HOST_FAULT mark stops the model is
its own choice (log 4). -/
def Obligations.StepStopsOnlyOnHostFault : Prop :=
  ∀ s : State, (s.hostFault = false → ∃ t, step s = .next t) ∧ (s.hostFault = true → step s = .fault .hostProtocol)

/-- Reading each register of 10_state.md R32 at its offset while idle returns its value with reserved bits 0, and changes nothing of the block (44_host_interface.md
R240). While BUSY = 1 a read of STATUS returns the STATUS word, with BUSY = 1 (20_memory.md R95); under the invariant DONE, FOUND, ERR, ERRCODE and OUTCOME
read 0 there (10_state.md R35). -/
def Obligations.RegisterReadsReturnTheMap : Prop :=
  (∀ (s : State) (rest : List HostOp), s.hostFault = false → s.pending = none →
    ∀ p ∈ [((0x00 : BitVec 8), (0 : Word)), (0x04, s.statusWord), (0x08, if s.ctrlDiffSat then 1 else 0), (0x0C, s.srcBase),
        (0x10, s.srcLen), (0x14, s.dstBase), (0x18, s.locStride), (0x1C, s.locDepth), (0x20, s.locWindow), (0x24, s.resyncCfg),
        (0x28, s.syncOffset), (0x2C, BitVec.ofNat 32 s.syncByte.toNat), (0x30, s.resultLen),
        (0x34, BitVec.ofNat 32 (256 * s.diffPrevQ.toNat + s.diffPrevI.toNat)), (0x38, s.sqrtArg), (0x3C, s.sqrtRes)],
      s.hostProgram = .regRead p.1 32 :: rest →
      step s = .next { s with hostProgram := rest, hostReceived := p.2 :: s.hostReceived }) ∧
  ∀ (s : State) (w : Word) (rest : List HostOp), s.hostFault = false → s.pending = some w → s.mover = some .host →
    s.hostProgram = .regRead 0x04 32 :: rest →
    step s = .next
      { s with hostProgram := rest, schedule := s.schedule.tail, hostReceived := s.statusWord :: s.hostReceived } ∧
    s.statusWord.getLsbD 0 = true ∧
    (s.Inv → s.statusWord.extractLsb' 1 3 = 0 ∧ s.statusWord.extractLsb' 8 4 = 0 ∧ s.statusWord.extractLsb' 12 2 = 0)

/-- A write to an RW register stores the defined fields of the value and leaves everything else as it was, every other register among it; a read then gives them
back with reserved bits 0 (44_host_interface.md R241; 10_state.md R51; 20_memory.md R89). -/
def Obligations.WrittenRegistersReadBack : Prop :=
  ∀ (s : State) (v : Word) (rest : List HostOp), s.hostFault = false → s.pending = none →
    ∀ p ∈ [((0x08 : BitVec 8), { s with ctrlDiffSat := v.getLsbD 0 }, v &&& 1), (0x0C, { s with srcBase := v }, v),
        (0x10, { s with srcLen := v }, v), (0x14, { s with dstBase := v }, v), (0x18, { s with locStride := v }, v),
        (0x1C, { s with locDepth := v }, v), (0x20, { s with locWindow := v }, v), (0x24, { s with resyncCfg := v }, v),
        (0x34, { s with diffPrevI := v.extractLsb' 0 8, diffPrevQ := v.extractLsb' 8 8 }, v &&& 0xFFFF),
        (0x38, { s with sqrtArg := v }, v)],
      s.hostProgram = .regWrite p.1 32 v :: .regRead p.1 32 :: rest →
      step s = .next { p.2.1 with hostProgram := .regRead p.1 32 :: rest } ∧
        Host.Core.run core 2 s = .next { p.2.1 with hostProgram := rest, hostReceived := p.2.2 :: s.hostReceived }

/-- 10_state.md R50, R52: a write to a read-only register or to an unmapped offset has no effect on any state, and an unmapped offset reads 0. -/
def Obligations.ReadOnlyAndUnmappedOffsetsIgnoreWrites : Prop :=
  ∀ (s : State) (off : BitVec 8) (v : Word) (rest : List HostOp), s.hostFault = false → s.pending = none →
    ((off ∈ [(0x04 : BitVec 8), 0x28, 0x2C, 0x30, 0x3C] ∨ (0x40 ≤ off.toNat ∧ off.toNat % 4 = 0)) →
      s.hostProgram = .regWrite off 32 v :: rest → step s = .next { s with hostProgram := rest }) ∧
    (0x40 ≤ off.toNat → off.toNat % 4 = 0 → s.hostProgram = .regRead off 32 :: rest →
      step s = .next { s with hostProgram := rest, hostReceived := 0 :: s.hostReceived })

/-- A host write of 1, 2 or 4 bytes stores the low bytes little-endian and nothing else, and the same read returns them. A read returns the bytes the memory
holds, little-endian, and changes nothing of the block (44_host_interface.md R242; 20_memory.md R85, R86, R89). -/
def Obligations.SymbolWritesReadBackLittleEndian : Prop :=
  (∀ (s : State) (a : Nat) (w : SymWidth) (v : Word) (rest : List HostOp), s.mem.wf → s.hostFault = false → s.pending = none →
    let bytes := match w with | .one => 1 | .two => 2 | .four => 4
    a + bytes ≤ s.symMemSize → s.hostProgram = .symWrite a w v :: .symRead a w :: rest →
    ∃ t, Host.Core.run core 2 s = .next t ∧
      t = { s with mem := t.mem, hostProgram := rest, hostReceived := BitVec.ofNat 32 (v.toNat % 256 ^ bytes) :: s.hostReceived } ∧
      (∀ i, i < bytes → (t.mem.read (a + i)).toNat = v.toNat / 256 ^ i % 256) ∧
      ∀ b, b < a ∨ a + bytes ≤ b → t.mem.read b = s.mem.read b) ∧
  ∀ (s : State) (a : Nat) (w : SymWidth) (rest : List HostOp), s.hostFault = false → s.pending = none →
    let byte := fun i => (s.mem.read (a + i)).toNat
    a + (match w with | .one => 1 | .two => 2 | .four => 4) ≤ s.symMemSize → s.hostProgram = .symRead a w :: rest →
    step s = .next
      { s with
        hostProgram := rest
        hostReceived := BitVec.ofNat 32
          (match w with
            | .one => byte 0
            | .two => byte 0 + 256 * byte 1
            | .four => byte 0 + 256 * byte 1 + 65536 * byte 2 + 16777216 * byte 3) :: s.hostReceived }

/-- 60_exceptions.md R270: when it is the host's turn, the transaction sets HOST_FAULT exactly in cases (a), (b) and (c); once set, no
transaction and no engine step clears it. That the reset input does not clear it either is the model's reading (log 9, DEDUCED: 10_state.md R57 against
R60). -/
def Obligations.HostFaultExactlyOnProtocolViolations : Prop :=
  (∀ (s : State) (op : HostOp) (rest : List HostOp), s.hostFault = false → s.hostProgram = op :: rest → s.mover = some .host →
    ∃ t, step s = .next t ∧
      (t.hostFault = true ↔
        match op with
        | .regRead off width => (s.busy ∧ off ≠ 0x04) ∨ width ≠ 32 ∨ off.toNat % 4 ≠ 0
        | .regWrite off width _ => s.busy ∨ width ≠ 32 ∨ off.toNat % 4 ≠ 0
        | .symRead a w => s.busy ∨ s.symMemSize < a + (match w with | .one => 1 | .two => 2 | .four => 4)
        | .symWrite a w _ => s.busy ∨ s.symMemSize < a + (match w with | .one => 1 | .two => 2 | .four => 4)
        | .poll => False
        | .reset => False)) ∧
  ∀ s : State, s.hostFault = true → s.hostStep.hostFault = true ∧ ∃ t, engineStep s = .next t ∧ t.hostFault = true

/-- R243: under the host duty (nothing but a STATUS read while BUSY = 1), the host's read before the engine's step and after it leave the same block, the
same host program and the same schedule. -/
def Obligations.InterleavingsLeaveTheSameBlock : Prop :=
  ∀ (s : State) (w : Word) (rest : List HostOp) (later : List Agent), s.hostFault = false → s.pending = some w →
    s.hostProgram = .regRead 0x04 32 :: rest →
    ∃ t u, Host.Core.run core 2 { s with schedule := .host :: .engine :: later } = .next t ∧
      Host.Core.run core 2 { s with schedule := .engine :: later } = .next u ∧
      t.block = u.block ∧ t.pending = none ∧ t.hostProgram = rest ∧ u.hostProgram = rest ∧
      t.schedule = later ∧ u.schedule = later

/-- POLL ends, with BUSY = 0, the host's program past it and the block as the engine's one step leaves it, whatever finite schedule of reads comes first
(30_encoding.md R116; 70_reset_and_hazards.md R307, R300). -/
def Obligations.PollEndsAfterTheEngineStep : Prop :=
  ∀ (s : State) (w : Word) (rest : List HostOp), s.hostFault = false → s.pending = some w → s.hostProgram = .poll :: rest →
    ∃ k t u, Host.Core.run core k s = .next t ∧ engineStep s = .next u ∧ t.block = u.block ∧ t.pending = none ∧
      t.hostProgram = rest ∧ ∃ v seen, t.hostReceived = v :: (seen ++ s.hostReceived) ∧ v.getLsbD 0 = false ∧
        ∀ x ∈ seen, x = s.statusWord

/-! ### Reset and the invariant (10_state.md, 70_reset_and_hazards.md) -/

/-- 10_state.md R60: the state after power-on reset, whatever symbol memory holds. -/
def Obligations.ResetStateIsAsListed : Prop :=
  ∀ m : Memory,
    let s := State.powerOn m
    s.statusWord = 0x00000000 ∧ s.busy = false ∧ s.done = false ∧ s.found = false ∧ s.err = false ∧ s.errSticky = false ∧
    s.errCode = .noError ∧ s.outcome = .ok ∧ s.tableState = .uninit ∧ s.lastOp = 0x00 ∧
    s.resyncCfg = 0x00800304 ∧ s.acqDepth = 4 ∧ s.retry = 3 ∧ s.lookahead = 128 ∧
    s.diffPrevI = 0 ∧ s.diffPrevQ = 0 ∧
    s.ctrlDiffSat = false ∧ s.srcBase = 0 ∧ s.srcLen = 0 ∧ s.dstBase = 0 ∧ s.locStride = 0 ∧ s.locDepth = 0 ∧ s.locWindow = 0 ∧
    s.syncOffset = 0 ∧ s.syncByte = 0 ∧ s.resultLen = 0 ∧ s.sqrtArg = 0 ∧ s.sqrtRes = 0 ∧
    s.pending = none ∧ s.mem = m ∧ s.hostFault = false

/-- 70_reset_and_hazards.md R290, R291: the reset input puts every register, TABLE_STATE and the engine at R60's values; it keeps symbol memory when
BUSY = 0, and when BUSY = 1 every byte outside the regions the pending command could write. What stays of the host and of HOST_FAULT is log 9. -/
def Obligations.ResetInputRestoresTheRegisters : Prop :=
  ∀ (s : State) (rest : List HostOp), s.hostFault = false → s.hostProgram = .reset :: rest → s.mover = some .host →
    ∃ t, step s = .next t ∧
      t = { State.reset with
        mem := t.mem, draws := t.draws, symMemSize := s.symMemSize, hostProgram := rest,
        schedule := if s.busy then s.schedule.tail else s.schedule, hostReceived := s.hostReceived } ∧
      (s.busy = false → t.mem = s.mem) ∧
      ∀ w, s.pending = some w → ∀ a,
        (match decode w with
          | .command .diffDecode | .command .resync => a < s.srcBase.toNat ∨ s.srcBase.toNat + s.srcLen.toNat ≤ a
          | .command .deinterleave => a < s.dstBase.toNat ∨ s.dstBase.toNat + s.srcLen.toNat ≤ a
          | .command .resyncDeinterleave =>
            (a < s.srcBase.toNat ∨ s.srcBase.toNat + s.srcLen.toNat ≤ a) ∧
              (a < s.dstBase.toNat ∨ s.dstBase.toNat + 72 * (s.srcLen.toNat / 80) ≤ a)
          | _ => True) →
        t.mem.read a = s.mem.read a

/-- The invariant holds after power-on with any canonical symbol memory. -/
def Obligations.PowerOnMeetsTheInvariant : Prop :=
  ∀ m : Memory, m.wf → (∀ c ∈ m, c.1 < Config.defaultSymMemSize) → (State.powerOn m).Inv

/-- Every step keeps the invariant: the canonical and bounded memory, the flag relations of 10_state.md R35 and 60_exceptions.md R263 and R267, the range of
SQRT_RES, and that NO_SHRINK never stands. -/
def Obligations.StepKeepsTheInvariant : Prop :=
  ∀ s t : State, s.Inv → step s = .next t → t.Inv

/-- The canonical form is one form: memories that read alike are equal data (log 2). -/
def Obligations.MemoriesThatReadAlikeAreEqual : Prop :=
  ∀ m k : Memory, m.wf → k.wf → (∀ a, m.read a = k.read a) → m = k

/-- The STATUS word's bits, field by field, with the codes of 10_state.md R34 and 60_exceptions.md R261 and R267; reserved bits read 0. -/
def Obligations.StatusWordHasTheStatedLayout : Prop :=
  ∀ s : State,
    let w := s.statusWord
    w.getLsbD 0 = s.pending.isSome ∧ w.getLsbD 1 = s.done ∧ w.getLsbD 2 = s.found ∧ w.getLsbD 3 = s.err ∧
    w.getLsbD 4 = s.errSticky ∧ w.extractLsb' 5 3 = 0 ∧
    (w.extractLsb' 8 4).toNat =
      (match s.errCode with
        | .noError => 0 | .illegalCmd => 1 | .tableNotReady => 2 | .tableLifecycle => 3 | .badLength => 4 | .badCfg => 5
        | .sqrtArgRange => 6 | .range => 7 | .overlap => 8) ∧
    (w.extractLsb' 12 2).toNat = (match s.outcome with | .ok => 0 | .noSync => 1 | .noShrink => 2) ∧
    w.extractLsb' 14 2 = 0 ∧
    (w.extractLsb' 16 2).toNat = (match s.tableState with | .uninit => 0 | .ready => 1 | .released => 2) ∧
    w.extractLsb' 18 6 = 0 ∧ w.extractLsb' 24 8 = s.lastOp

/-- ERR_STICKY is "cleared by reset only" (10_state.md R34): a step that clears it is the host's reset entry. -/
def Obligations.ErrStickyStaysUntilReset : Prop :=
  ∀ s t : State, step s = .next t → s.errSticky = true → t.errSticky = false →
    s.mover = some .host ∧ ∃ rest, s.hostProgram = .reset :: rest

/-! ### Errors and frames of all commands (60_exceptions.md, 10_state.md) -/

/-- 60_exceptions.md R262, R263: a command that raises an error changes STATUS only, as `raise Error` says. -/
def Obligations.ErrorsChangeOnlyStatus : Prop :=
  ∀ (i : Instr) (s t : State), exec i s = .next t → s.err = false → t.err = true →
    t.errCode ≠ .noError ∧
      t = { s with
        err := true, errSticky := true, errCode := t.errCode, outcome := .ok, pending := none, done := true }

/-- 60_exceptions.md R264: every command reports the first failing check of its fixed order, and an illegal word reports ILLEGAL_CMD with no other check. -/
def Obligations.ChecksReportInTheirFixedOrder : Prop :=
  (∀ (i : Instr) (s : State), s.errCode = .noError →
    let src := s.srcBase.toNat
    let n := s.srcLen.toNat
    let dst := s.dstBase.toNat
    let window := s.locWindow.toNat
    let sd := s.locStride.toNat * s.locDepth.toNat
    let a := s.sqrtArg.toInt
    let out := fun base len => len ≠ 0 ∧ s.symMemSize < base + len
    let mo := 72 * (n / 80)
    let meet := fun m k => m > 0 ∧ k > 0 ∧ src < dst + k ∧ dst < src + m
    ∃ t, exec i s = .next t ∧
      t.errCode =
        match i with
        | .nop => .noError
        | .sqrtInit => if s.tableState ≠ .uninit then .tableLifecycle else .noError
        | .sqrtRelease => if s.tableState ≠ .ready then .tableLifecycle else .noError
        | .sqrtLookup =>
          if s.tableState ≠ .ready then .tableNotReady else if a < -16384 ∨ 16384 < a then .sqrtArgRange else .noError
        | .diffDecode =>
          if s.tableState ≠ .ready then .tableNotReady
          else if n < 2 ∨ n % 2 = 1 then .badLength
          else if out src n then .range else .noError
        | .syncLocate => if window > sd ∧ s.symMemSize < src + (window + 7) then .range else .noError
        | .resync => if s.resyncCfg.toNat / 256 % 256 = 0 then .badCfg else if out src n then .range else .noError
        | .deinterleave =>
          if out src n then .range else if out dst n then .range else if meet n n then .overlap else .noError
        | .resyncDeinterleave =>
          if s.resyncCfg.toNat / 256 % 256 = 0 then .badCfg
          else if out src n then .range
          else if out dst mo then .range
          else if meet n mo then .overlap else .noError) ∧
  ∀ (s : State) (w : Word) (why : IllegalWord), s.pending = some w → decode w = .illegal why →
    ∃ t, engineStep s = .next t ∧ t.errCode = .illegalCmd

/-- The registers each command may write (30_encoding.md R117; 10_state.md R37–R49): no operand register, no parameter and no part of the host; each result
register only by its own commands; symbol memory only by the four that store. -/
def Obligations.CommandsWriteOnlyTheirRegisters : Prop :=
  ∀ (i : Instr) (s t : State), exec i s = .next t →
    t = { t with
      lastOp := s.lastOp, ctrlDiffSat := s.ctrlDiffSat, srcBase := s.srcBase, srcLen := s.srcLen, dstBase := s.dstBase,
      locStride := s.locStride, locDepth := s.locDepth, locWindow := s.locWindow, resyncCfg := s.resyncCfg, sqrtArg := s.sqrtArg,
      symMemSize := s.symMemSize, hostFault := s.hostFault, hostProgram := s.hostProgram, schedule := s.schedule,
      hostReceived := s.hostReceived, draws := s.draws } ∧
    (i ≠ .syncLocate → t.syncOffset = s.syncOffset ∧ t.syncByte = s.syncByte) ∧
    (i ≠ .sqrtLookup → t.sqrtRes = s.sqrtRes) ∧
    (i ∉ [.resync, .deinterleave, .resyncDeinterleave] → t.resultLen = s.resultLen) ∧
    (i ≠ .diffDecode → t.diffPrevI = s.diffPrevI ∧ t.diffPrevQ = s.diffPrevQ) ∧
    (i ∉ [.sqrtInit, .sqrtRelease] → t.tableState = s.tableState) ∧
    (i ∉ [.diffDecode, .resync, .deinterleave, .resyncDeinterleave] → t.mem = s.mem)

/-- The engine never writes an address at or above SYM_MEM_SIZE (20_memory.md R87). -/
def Obligations.EngineWritesOnlySymbolMemory : Prop :=
  ∀ (i : Instr) (s t : State), exec i s = .next t → ∀ a, s.symMemSize ≤ a → t.mem.read a = s.mem.read a

/-- The engine never reads an address at or above SYM_MEM_SIZE (20_memory.md R87): two states that differ only in what such addresses read as give results
that differ only there. -/
def Obligations.EngineReadsOnlySymbolMemory : Prop :=
  ∀ (i : Instr) (s : State) (m : Memory), s.mem.wf → m.wf → (∀ a, a < s.symMemSize → m.read a = s.mem.read a) →
    ∃ t u, exec i s = .next t ∧ exec i { s with mem := m } = .next u ∧ { u with mem := t.mem } = t ∧
      ∀ a, a < s.symMemSize → u.mem.read a = t.mem.read a

/-! ### NOP (44_host_interface.md) -/

/-- R245: NOP does nothing except complete; from its launch it clears ERR, ERRCODE, FOUND and OUTCOME and leaves ERR_STICKY. -/
def Obligations.NopOnlyCompletes : Prop :=
  ∀ s : State,
    exec .nop s = .next { s with outcome := .ok, pending := none, done := true } ∧
    (s.hostFault = false → step (s.withFetchWord 32 0x00000000) = .next
      { s with
        lastOp := 0x00, found := false, err := false, errCode := .noError, outcome := .ok, pending := none, done := true })

/-! ### Square-root table (42_sqrt_table.md) -/

/-- R201: SQRT_INIT from UNINIT makes the table READY; otherwise it is refused with TABLE_LIFECYCLE. -/
def Obligations.SqrtInitBuildsTheTable : Prop :=
  ∀ s : State,
    (s.tableState = .uninit → exec .sqrtInit s = .next
      { s with tableState := .ready, outcome := .ok, pending := none, done := true }) ∧
    (s.tableState ≠ .uninit → exec .sqrtInit s = .next
      { s with
        err := true, errSticky := true, errCode := .tableLifecycle, outcome := .ok, pending := none, done := true })

/-- R203: SQRT_RELEASE from READY releases the table; otherwise it is refused with TABLE_LIFECYCLE. -/
def Obligations.SqrtReleaseReleasesTheTable : Prop :=
  ∀ s : State,
    (s.tableState = .ready → exec .sqrtRelease s = .next
      { s with tableState := .released, outcome := .ok, pending := none, done := true }) ∧
    (s.tableState ≠ .ready → exec .sqrtRelease s = .next
      { s with
        err := true, errSticky := true, errCode := .tableLifecycle, outcome := .ok, pending := none, done := true })

/-- R202: SQRT_LOOKUP writes the truncated sign-preserving root of its signed argument, in 32-bit two's complement, and is refused before init, after
release, and outside ±16384. -/
def Obligations.SqrtLookupWritesTheSignedRoot : Prop :=
  ∀ s : State,
    let a := s.sqrtArg.toInt
    let refused := fun c => { s with
      err := true, errSticky := true, errCode := c, outcome := .ok, pending := none, done := true }
    (s.tableState ≠ .ready → exec .sqrtLookup s = .next (refused .tableNotReady)) ∧
    (s.tableState = .ready → (a < -16384 ∨ 16384 < a) → exec .sqrtLookup s = .next (refused .sqrtArgRange)) ∧
    (s.tableState = .ready → -16384 ≤ a → a ≤ 16384 →
      ∃ r : Nat, r * r ≤ a.natAbs ∧ a.natAbs < (r + 1) * (r + 1) ∧
        exec .sqrtLookup s = .next
          { s with
            sqrtRes := BitVec.ofInt 32 (if a < 0 then -(r : Int) else r), outcome := .ok, pending := none, done := true })

/-- R205: the stated values of ssqrt, its monotonicity, oddness, bound and truncation error. -/
def Obligations.SsqrtHasTheStatedProperties : Prop :=
  ssqrt 0 = 0 ∧ ssqrt 16384 = 128 ∧ ssqrt (-9) = -3 ∧
  (∀ a b : Int, -16384 ≤ a → a ≤ b → b ≤ 16384 → ssqrt a ≤ ssqrt b) ∧
  (∀ a : Int, -16384 ≤ a → a ≤ 16384 → ssqrt (-a) = -ssqrt a) ∧
  (∀ a : Int, -16384 ≤ a → a ≤ 16384 → -128 ≤ ssqrt a ∧ ssqrt a ≤ 128) ∧
  (∀ a : Int, -16384 ≤ a → a ≤ 16384 → ssqrt a = 128 → a = 16384) ∧
  (∀ a : Int, 0 ≤ a → a ≤ 16384 → ssqrt a * ssqrt a ≤ a ∧ a < (ssqrt a + 1) * (ssqrt a + 1))

/-- R204: over any step TABLE_STATE stays, or goes UNINIT → READY by SQRT_INIT, or READY → RELEASED by SQRT_RELEASE, or to UNINIT by reset; every other
lifecycle command is refused with TABLE_LIFECYCLE and leaves it. -/
def Obligations.TableLifecycleIsOneWay : Prop :=
  (∀ s t : State, step s = .next t →
    t.tableState = s.tableState ∨
    (s.tableState = .uninit ∧ t.tableState = .ready ∧ s.pending = some (encode .sqrtInit)) ∨
    (s.tableState = .ready ∧ t.tableState = .released ∧ s.pending = some (encode .sqrtRelease)) ∨
    (t.tableState = .uninit ∧ s.mover = some .host ∧ ∃ rest, s.hostProgram = .reset :: rest)) ∧
  ∀ (i : Instr) (s : State), (i = .sqrtInit ∧ s.tableState ≠ .uninit) ∨ (i = .sqrtRelease ∧ s.tableState ≠ .ready) →
    ∃ t, exec i s = .next t ∧ t.err = true ∧ t.errCode = .tableLifecycle ∧ t.tableState = s.tableState

/-! ### Differential decoder (43_differential.md) -/

/-- R220: DIFF_DECODE's checks in order, and its result: each pair's roots against the previous raw pair, the quadrature sign inverted, the last raw pair
carried out, nothing else written. -/
def Obligations.DiffDecodeDecodesEveryPair : Prop :=
  ∀ s : State, s.mem.wf →
    let src := s.srcBase.toNat
    let n := s.srcLen.toNat
    let raw := fun i => (s.mem.read (src + i)).toInt
    let pi := fun j => if j = 0 then s.diffPrevI.toInt else raw (2 * j - 2)
    let pq := fun j => if j = 0 then s.diffPrevQ.toInt else raw (2 * j - 1)
    let store := fun v : Int => if v = 128 ∧ s.ctrlDiffSat = true then (0x7F : Byte) else BitVec.ofInt 8 v
    let refused := fun c => { s with
      err := true, errSticky := true, errCode := c, outcome := .ok, pending := none, done := true }
    (s.tableState ≠ .ready → exec .diffDecode s = .next (refused .tableNotReady)) ∧
    (s.tableState = .ready → (n < 2 ∨ n % 2 ≠ 0) → exec .diffDecode s = .next (refused .badLength)) ∧
    (s.tableState = .ready → 2 ≤ n → n % 2 = 0 → s.symMemSize < src + n → exec .diffDecode s = .next (refused .range)) ∧
    (s.tableState = .ready → 2 ≤ n → n % 2 = 0 → src + n ≤ s.symMemSize →
      ∃ t, exec .diffDecode s = .next t ∧
        t = { s with
          mem := t.mem, diffPrevI := s.mem.read (src + (n - 2)), diffPrevQ := s.mem.read (src + (n - 1)),
          outcome := .ok, pending := none, done := true } ∧
        (∀ j, 2 * j < n →
          t.mem.read (src + 2 * j) = store (ssqrt (raw (2 * j) * pi j)) ∧
          t.mem.read (src + (2 * j + 1)) = store (ssqrt (-(raw (2 * j + 1) * pq j)))) ∧
        ∀ a, a < src ∨ src + n ≤ a → t.mem.read a = s.mem.read a)

/-- R221: the products of bytes stay in the table's range, at its ends only for −128 times −128, and DIFF_DECODE never raises SQRT_ARG_RANGE. -/
def Obligations.DiffProductsStayInTheTable : Prop :=
  (∀ a p : Byte, -16256 ≤ a.toInt * p.toInt ∧ a.toInt * p.toInt ≤ 16384 ∧
    (a.toInt * p.toInt = 16384 ↔ a.toInt = -128 ∧ p.toInt = -128) ∧
    -16384 ≤ -(a.toInt * p.toInt) ∧ -(a.toInt * p.toInt) ≤ 16256 ∧
    (-(a.toInt * p.toInt) = -16384 ↔ a.toInt = -128 ∧ p.toInt = -128)) ∧
  ∀ s t : State, exec .diffDecode s = .next t → s.errCode ≠ .sqrtArgRange → t.errCode ≠ .sqrtArgRange

/-- R222: +128 is the one root outside a signed byte, it arises in the I component only and from −128 times −128 only; it is stored as 0x80, or as 0x7F
with DIFF_SAT; every other value is stored as u8. -/
def Obligations.DiffStoresPlus128AsSelected : Prop :=
  (∀ a p : Byte, -128 ≤ ssqrt (a.toInt * p.toInt) ∧ ssqrt (a.toInt * p.toInt) ≤ 128 ∧
    (ssqrt (a.toInt * p.toInt) = 128 ↔ a.toInt = -128 ∧ p.toInt = -128)) ∧
  (∀ b q : Byte, -128 ≤ ssqrt (-(b.toInt * q.toInt)) ∧ ssqrt (-(b.toInt * q.toInt)) ≤ 127) ∧
  diffOutI false 0x80 0x80 = 0x80 ∧ diffOutI true 0x80 0x80 = 0x7F ∧
  (∀ (sat : Bool) (a p : Byte), ¬ (a = 0x80 ∧ p = 0x80) → diffOutI sat a p = BitVec.ofInt 8 (ssqrt (a.toInt * p.toInt))) ∧
  ∀ (sat : Bool) (b q : Byte), diffOutQ sat b q = BitVec.ofInt 8 (ssqrt (-(b.toInt * q.toInt)))

/-- R223: decoding n1 + n2 bytes in one DIFF_DECODE, or n1 and then n2 with DIFF_PREV untouched between, leaves the same memory and the same DIFF_PREV; the
first of the two leaves the raw pair at bytes n1−2 and n1−1. -/
def Obligations.ChunkedDecodingEqualsWholeDecoding : Prop :=
  ∀ (s : State) (n1 n2 : Nat), s.mem.wf → s.symMemSize ≤ 4294967296 → s.tableState = .ready →
    2 ≤ n1 → n1 % 2 = 0 → 2 ≤ n2 → n2 % 2 = 0 → s.srcLen.toNat = n1 + n2 → s.srcBase.toNat + (n1 + n2) ≤ s.symMemSize →
    ∃ t t1 t2, exec .diffDecode s = .next t ∧
      exec .diffDecode { s with srcLen := BitVec.ofNat 32 n1 } = .next t1 ∧
      exec .diffDecode { t1 with srcBase := BitVec.ofNat 32 (s.srcBase.toNat + n1), srcLen := BitVec.ofNat 32 n2 } = .next t2 ∧
      t1.diffPrevI = s.mem.read (s.srcBase.toNat + (n1 - 2)) ∧ t1.diffPrevQ = s.mem.read (s.srcBase.toNat + (n1 - 1)) ∧
      t2.mem = t.mem ∧ t2.diffPrevI = t.diffPrevI ∧ t2.diffPrevQ = t.diffPrevQ

/-- R224: the sign law of the outputs, their magnitude, and that a stored I byte differs from its root only at +128, a stored Q byte never. -/
def Obligations.DecodedSignsFollowTheSignLaw : Prop :=
  ∀ (sat : Bool) (a p b q : Byte),
    let vi := ssqrt (a.toInt * p.toInt)
    let vq := ssqrt (-(b.toInt * q.toInt))
    vi.sign = a.toInt.sign * p.toInt.sign ∧ vq.sign = -(b.toInt.sign * q.toInt.sign) ∧
    vi.natAbs * vi.natAbs ≤ a.toInt.natAbs * p.toInt.natAbs ∧
    a.toInt.natAbs * p.toInt.natAbs < (vi.natAbs + 1) * (vi.natAbs + 1) ∧
    vq.natAbs * vq.natAbs ≤ b.toInt.natAbs * q.toInt.natAbs ∧
    b.toInt.natAbs * q.toInt.natAbs < (vq.natAbs + 1) * (vq.natAbs + 1) ∧
    (vi ≠ 128 → (diffOutI sat a p).toInt = vi) ∧ (diffOutQ sat b q).toInt = vq

/-- The loop of R220, which reads each pair from the memory as it stands and then overwrites it, gives what the model computes from the start state
(20_memory.md R100; log 13). -/
def Obligations.DiffLoopInPlaceGivesTheSame : Prop :=
  ∀ s : State, s.mem.wf → s.tableState = .ready → 2 ≤ s.srcLen.toNat → s.srcLen.toNat % 2 = 0 →
    s.srcBase.toNat + s.srcLen.toNat ≤ s.symMemSize →
    ∃ t, exec .diffDecode s = .next t ∧
      diffInPlace s.ctrlDiffSat (s.srcLen.toNat / 2) s.mem s.diffPrevI s.diffPrevQ s.srcBase.toNat =
        (t.mem, t.diffPrevI, t.diffPrevQ)

/-! ### Sync Locator (40_sync_detector.md) -/

/-- R140, R141: HB packs the hard decisions least significant first, and is the one byte that does. -/
def Obligations.HardByteShowsTheHardBits : Prop :=
  (∀ b : Byte, hd b = if b.toNat < 128 then 1 else 0) ∧ (∀ b : Byte, hd b = 1 - (b.getLsbD 7).toNat) ∧
  hd 0x00 = 1 ∧ hd 0x7F = 1 ∧ hd 0x80 = 0 ∧ hd 0xFF = 0 ∧
  ∀ (X : Nat → Byte) (p : Nat) (b : Byte), ShowsByte X p b ↔ b = hardByte X p

/-- R142, R145: LOCATE answers the first qualifying offset with its byte, and none exactly when no candidate qualifies. -/
def Obligations.LocateFindsTheFirstOccurrence : Prop :=
  ∀ (X : Nat → Byte) (len stride depth window : Nat),
    (∀ o b, locate X len stride depth window = some (o, b) ↔ FirstQualifying X len stride depth window o b) ∧
    (locate X len stride depth window = none ↔ NoneQualifies X len stride depth window)

/-- R143, R146: LOCATE is a function of the symbols X[0] to X[|X|−1], and of their hard decisions only. -/
def Obligations.LocateReadsOnlyHardBitsInside : Prop :=
  ∀ (X Y : Nat → Byte) (len stride depth window : Nat),
    (∀ i, i < len → ((X i).toNat < 128 ↔ (Y i).toNat < 128)) →
    locate X len stride depth window = locate Y len stride depth window

/-- With every hard decision inverted, LOCATE finds the same offset and reports the inverted byte, since it compares X only with itself (R141, R142,
R144). -/
def Obligations.LocateOfInvertedHardBits : Prop :=
  ∀ (X Y : Nat → Byte) (len stride depth window : Nat),
    (∀ i, i < len → ((X i).toNat < 128 ↔ ¬ (Y i).toNat < 128)) →
    locate Y len stride depth window = (locate X len stride depth window).map fun p => (p.1, ~~~p.2)

/-- R147: SYNC_LOCATE's range check over window + 7, and its result in both outcomes. -/
def Obligations.SyncLocateReportsTheSearch : Prop :=
  ∀ s : State,
    let src := s.srcBase.toNat
    let stride := s.locStride.toNat
    let depth := s.locDepth.toNat
    let window := s.locWindow.toNat
    let span := if window > stride * depth then window + 7 else 0
    let X := fun i => s.mem.read (src + i)
    (span ≠ 0 → s.symMemSize < src + span → exec .syncLocate s = .next
      { s with err := true, errSticky := true, errCode := .range, outcome := .ok, pending := none, done := true }) ∧
    (span = 0 ∨ src + span ≤ s.symMemSize →
      (∀ o b, FirstQualifying X span stride depth window o b → exec .syncLocate s = .next
        { s with
          syncOffset := BitVec.ofNat 32 o, syncByte := b, found := true, outcome := .ok, pending := none, done := true }) ∧
      (NoneQualifies X span stride depth window → exec .syncLocate s = .next
        { s with
          syncOffset := 0, syncByte := 0, found := false, outcome := .noSync, pending := none, done := true }) ∧
      ((∃ o b, FirstQualifying X span stride depth window o b) ∨ NoneQualifies X span stride depth window))

/-- R147's corner cases (a), (b) and (c): depth 0 or stride 0 find offset 0 in any window; a window of at most stride·depth finds nothing and is never out of
range. -/
def Obligations.SyncLocateCornerCases : Prop :=
  ∀ s : State,
    let src := s.srcBase.toNat
    let window := s.locWindow.toNat
    ((s.locDepth = 0 ∨ s.locStride = 0) → 1 ≤ window → src + window + 7 ≤ s.symMemSize →
      exec .syncLocate s = .next
        { s with
          syncOffset := 0, syncByte := hardByte (fun i => s.mem.read (src + i)) 0, found := true, outcome := .ok,
          pending := none, done := true }) ∧
    (window ≤ s.locStride.toNat * s.locDepth.toNat → exec .syncLocate s = .next
      { s with syncOffset := 0, syncByte := 0, found := false, outcome := .noSync, pending := none, done := true })

/-! ### Stream Resynchronizer (40_sync_detector.md) -/

/-- R152–R156, R160: RESYNC's checks in order, and its result: the frames a run of the rules confirms, their data compacted at src, RESULT_LEN, FOUND and
OUTCOME; no other byte changes. -/
def Obligations.ResyncCompactsTheConfirmedFrames : Prop :=
  ∀ s : State, s.mem.wf →
    let src := s.srcBase.toNat
    let n := s.srcLen.toNat
    let depth := s.resyncCfg.toNat % 256
    let retry := s.resyncCfg.toNat / 256 % 256
    let la := s.resyncCfg.toNat / 65536
    let snap := fun i => s.mem.read (src + i)
    let refused := fun c => { s with
      err := true, errSticky := true, errCode := c, outcome := .ok, pending := none, done := true }
    (retry = 0 → exec .resync s = .next (refused .badCfg)) ∧
    (retry ≠ 0 → n ≠ 0 → s.symMemSize < src + n → exec .resync s = .next (refused .range)) ∧
    (retry ≠ 0 → n = 0 ∨ src + n ≤ s.symMemSize →
      ∃ fs t, CoarseRun snap n depth retry la 0 fs ∧ exec .resync s = .next t ∧
        t = { s with
          mem := t.mem, resultLen := BitVec.ofNat 32 (72 * fs.length), found := decide (fs ≠ []),
          outcome := if fs = [] then .noSync else .ok, pending := none, done := true } ∧
        (∀ k j (hk : k < fs.length), j < 72 → t.mem.read (src + (72 * k + j)) = s.mem.read (src + (fs[k] + 8 + j))) ∧
        ∀ a, a < src ∨ src + 72 * fs.length ≤ a → t.mem.read a = s.mem.read a)

/-- The rules R152–R155 fix a run: from one cursor there is one list of confirmed frames. -/
def Obligations.ResyncRunIsUnique : Prop :=
  ∀ (X : Nat → Byte) (n depth retry la pos : Nat) (fs gs : List Nat),
    CoarseRun X n depth retry la pos fs → CoarseRun X n depth retry la pos gs → fs = gs

/-- R157: the run ends before the model's bound on its steps: more fuel changes nothing (log 16). -/
def Obligations.ResyncEndsWithinItsBound : Prop :=
  ∀ (X : Nat → Byte) (n depth retry la extra : Nat), 1 ≤ retry →
    coarse X n depth retry la (n + 1 + extra) 0 = coarse X n depth retry la (n + 1) 0 ∧
    ∀ sync pos, track X n la sync (n + 1 + extra) pos = track X n la sync (n + 1) pos

/-- R158: reading the memory in place of the snapshot, with the copy in increasing j, gives the same memory and the same length. -/
def Obligations.ResyncInPlaceEqualsTheSnapshot : Prop :=
  ∀ (m : Memory) (src n depth retry la : Nat), m.wf →
    let snap := fun i => m.read (src + i)
    let data := (resyncFrames snap n depth retry la).flatMap (frameData snap)
    resyncInPlace src n depth retry la (n + 1) m 0 0 = (m.writeBytes src data, data.length)

/-- R159: confirmed frames lie at least 80 apart and whole in the buffer; RESYNC's RESULT_LEN is 72 times their number, at most 72·(n div 80), and below n when
it is not 0. -/
def Obligations.ResyncShrinksItsInput : Prop :=
  (∀ (X : Nat → Byte) (n depth retry la : Nat),
    let fs := resyncFrames X n depth retry la
    fs.Pairwise (fun p q => p + 80 ≤ q) ∧ (∀ p ∈ fs, p + 80 ≤ n) ∧ fs.length ≤ n / 80) ∧
  ∀ s : State, s.retry ≠ 0 → s.srcLen.toNat = 0 ∨ s.srcBase.toNat + s.srcLen.toNat ≤ s.symMemSize →
    ∃ t, exec .resync s = .next t ∧
      t.resultLen.toNat =
        72 * (resyncFrames (fun i => s.mem.read (s.srcBase.toNat + i)) s.srcLen.toNat s.acqDepth s.retry s.lookahead).length ∧
      t.resultLen.toNat ≤ 72 * (s.srcLen.toNat / 80) ∧ (t.resultLen ≠ 0 → t.resultLen.toNat < s.srcLen.toNat)

/-- R161: when every LOCATE of the run fails, one per retry·80 symbols, RESYNC writes no symbol memory and ends with RESULT_LEN = 0 and NO_SYNC. -/
def Obligations.NoAcquisitionMeansNoWrite : Prop :=
  ∀ s : State,
    let src := s.srcBase.toNat
    let n := s.srcLen.toNat
    s.retry ≠ 0 → n = 0 ∨ src + n ≤ s.symMemSize →
    (∀ k, let pos := k * (s.retry * 80)
      pos + (s.acqDepth + 1) * 80 ≤ n →
        NoneQualifies (fun i => s.mem.read (src + (pos + i))) (n - pos) 80 s.acqDepth ((s.acqDepth + 1) * 80)) →
    exec .resync s = .next
      { s with resultLen := 0, found := false, outcome := .noSync, pending := none, done := true }

/-! ### De-interleaver (41_deinterleaver.md) -/

/-- R180, R181: DEINTERLEAVE's checks in order, and every byte of its destination; the source and every other byte unchanged. -/
def Obligations.DeinterleaveFillsTheDestination : Prop :=
  ∀ s : State, s.mem.wf →
    let src := s.srcBase.toNat
    let dst := s.dstBase.toNat
    let n := s.srcLen.toNat
    let meet := n > 0 ∧ src < dst + n ∧ dst < src + n
    let refused := fun c => { s with
      err := true, errSticky := true, errCode := c, outcome := .ok, pending := none, done := true }
    (n ≠ 0 → s.symMemSize < src + n → exec .deinterleave s = .next (refused .range)) ∧
    (n ≠ 0 → src + n ≤ s.symMemSize → s.symMemSize < dst + n → exec .deinterleave s = .next (refused .range)) ∧
    (src + n ≤ s.symMemSize → dst + n ≤ s.symMemSize → meet → exec .deinterleave s = .next (refused .overlap)) ∧
    (n = 0 ∨ (src + n ≤ s.symMemSize ∧ dst + n ≤ s.symMemSize) → ¬ meet →
      ∃ t, exec .deinterleave s = .next t ∧
        t = { s with
          mem := t.mem, resultLen := s.srcLen, found := false, outcome := .ok, pending := none, done := true } ∧
        (∀ i, i < n → t.mem.read (dst + i) =
          if i + i % 36 * 73728 < n then s.mem.read (src + (i + i % 36 * 73728)) else 0x00) ∧
        ∀ a, a < dst ∨ dst + n ≤ a → t.mem.read a = s.mem.read a)

/-- R183: DSRC keeps the residue mod 36 and is injective, and DI recovers X at every filled position of any Y that DSRC places it in. -/
def Obligations.DeinterleaveInvertsOnFilledPositions : Prop :=
  (∀ i, dsrc i % 36 = i % 36) ∧ (∀ i j, dsrc i = dsrc j → i = j) ∧
  ∀ (X Y : Nat → Byte) (n : Nat), (∀ i, i < n → dsrc i < n → Y (dsrc i) = X i) →
    ∀ i, i < n → (dsrc i < n → deinterleavedAt Y n i = X i) ∧ (¬ dsrc i < n → deinterleavedAt Y n i = 0x00)

/-- R182: the filled positions of a full message, branch by branch and in all. -/
def Obligations.FilledPositionsOfAFullMessage : Prop :=
  (∀ i n, dsrc i < n ↔ i + i % 36 * 73728 < n) ∧
  (∀ k, k < 36 →
    ((List.range 2654208).filter fun i => decide (i % 36 = k ∧ dsrc i < 2654208)).length = 2048 * (36 - k)) ∧
  ((List.range 2654208).filter fun i => decide (dsrc i < 2654208)).length = 1363968

/-- R185: RESYNC_DEINTERLEAVE's checks in order, and its result: the compaction in (src, rp); on OK every byte of (dst, rp), on NO_SYNC no byte at all; no
other byte changes, and NO_SHRINK does not occur (R186). -/
def Obligations.ResyncDeinterleaveComposesTheTwo : Prop :=
  ∀ s : State, s.mem.wf →
    let src := s.srcBase.toNat
    let dst := s.dstBase.toNat
    let n := s.srcLen.toNat
    let mo := 72 * (n / 80)
    let retry := s.resyncCfg.toNat / 256 % 256
    let snap := fun i => s.mem.read (src + i)
    let srcOk := n = 0 ∨ src + n ≤ s.symMemSize
    let dstOk := mo = 0 ∨ dst + mo ≤ s.symMemSize
    let meet := n > 0 ∧ mo > 0 ∧ src < dst + mo ∧ dst < src + n
    let refused := fun c => { s with
      err := true, errSticky := true, errCode := c, outcome := .ok, pending := none, done := true }
    (retry = 0 → exec .resyncDeinterleave s = .next (refused .badCfg)) ∧
    (retry ≠ 0 → ¬ srcOk → exec .resyncDeinterleave s = .next (refused .range)) ∧
    (retry ≠ 0 → srcOk → ¬ dstOk → exec .resyncDeinterleave s = .next (refused .range)) ∧
    (retry ≠ 0 → srcOk → dstOk → meet → exec .resyncDeinterleave s = .next (refused .overlap)) ∧
    (retry ≠ 0 → srcOk → dstOk → ¬ meet →
      ∃ fs t, CoarseRun snap n (s.resyncCfg.toNat % 256) retry (s.resyncCfg.toNat / 65536) 0 fs ∧
        exec .resyncDeinterleave s = .next t ∧
        (fs = [] → t = { s with resultLen := 0, found := false, outcome := .noSync, pending := none, done := true }) ∧
        (fs ≠ [] →
          let rp := 72 * fs.length
          t = { s with
            mem := t.mem, resultLen := BitVec.ofNat 32 rp, found := true, outcome := .ok, pending := none, done := true } ∧
          (∀ k j (hk : k < fs.length), j < 72 → t.mem.read (src + (72 * k + j)) = s.mem.read (src + (fs[k] + 8 + j))) ∧
          (∀ i, i < rp → t.mem.read (dst + i) =
            if i + i % 36 * 73728 < rp then t.mem.read (src + (i + i % 36 * 73728)) else 0x00) ∧
          ∀ a, (a < src ∨ src + rp ≤ a) → (a < dst ∨ dst + rp ≤ a) → t.mem.read a = s.mem.read a))

/-- R186: no command ever completes with NO_SHRINK. -/
def Obligations.NoShrinkNeverOccurs : Prop :=
  ∀ (i : Instr) (s t : State), exec i s = .next t → t.outcome ≠ .noShrink

/-- R187: a clean stream of N ≥ 5 frames with the reset configuration: all N payloads are recovered and de-interleaved; with N ≤ 4 the result is NO_SYNC. -/
def Obligations.CleanStreamIsRecoveredWhole : Prop :=
  ∀ (s : State) (N : Nat), s.mem.wf → s.resyncCfg = 0x00800304 →
    let src := s.srcBase.toNat
    let dst := s.dstBase.toNat
    s.srcLen.toNat = 80 * N → src + 80 * N ≤ s.symMemSize → dst + 72 * N ≤ s.symMemSize →
    dst + 72 * N ≤ src ∨ src + 80 * N ≤ dst →
    (5 ≤ N →
      (∀ f j, f < N → j < 8 → ((s.mem.read (src + (80 * f + j))).toNat < 128 ↔ (s.mem.read (src + j)).toNat < 128)) →
      ∃ t, exec .resyncDeinterleave s = .next t ∧
        t = { s with
          mem := t.mem, resultLen := BitVec.ofNat 32 (72 * N), found := true, outcome := .ok, pending := none,
          done := true } ∧
        (∀ f j, f < N → j < 72 → t.mem.read (src + (72 * f + j)) = s.mem.read (src + (80 * f + 8 + j))) ∧
        ∀ i, i < 72 * N → t.mem.read (dst + i) =
          if i + i % 36 * 73728 < 72 * N then t.mem.read (src + (i + i % 36 * 73728)) else 0x00) ∧
    (N ≤ 4 → exec .resyncDeinterleave s = .next
      { s with resultLen := 0, found := false, outcome := .noSync, pending := none, done := true })
end

