-- ==== Sys2Proof/Laws/Search.lean ====
section
/-! SUPPORT. One spec lemma per search of the sync marker detector (40_sync_detector.md). -/

namespace Sys2Proof.Machine

theorem allUpTo_iff (p : Nat → Bool) (d : Nat) : allUpTo p d = true ↔ ∀ k, 1 ≤ k → k ≤ d → p k = true := by
  induction d with
  | zero => simp [allUpTo]; omega
  | succ d ih =>
    rw [allUpTo, Bool.and_eq_true, ih]
    constructor
    · rintro ⟨h, hd⟩ k h1 hk
      by_cases e : k = d + 1
      · rwa [e]
      · exact h k h1 (by omega)
    · exact fun h => ⟨fun k h1 hk => h k h1 (by omega), h (d + 1) (by omega) (by omega)⟩

theorem firstFrom_some_iff (p : Nat → Bool) (count start o : Nat) :
    firstFrom p count start = some o ↔
      start ≤ o ∧ o < start + count ∧ p o = true ∧ ∀ q, start ≤ q → q < o → p q = false := by
  induction count generalizing start with
  | zero => simp [firstFrom]; omega
  | succ count ih =>
    rw [firstFrom]
    by_cases hp : p start = true
    · rw [if_pos hp, Option.some.injEq]
      constructor
      · rintro rfl
        exact ⟨by omega, by omega, hp, fun q h1 h2 => by omega⟩
      · rintro ⟨h1, _, _, h4⟩
        by_contra hne
        have := h4 start (by omega) (by omega)
        simp [hp] at this
    · rw [if_neg hp, ih]
      constructor
      · rintro ⟨h1, h2, h3, h4⟩
        refine ⟨by omega, by omega, h3, fun q hq hqo => ?_⟩
        by_cases e : q = start
        · rw [e]; exact Bool.eq_false_iff.2 hp
        · exact h4 q (by omega) hqo
      · rintro ⟨h1, h2, h3, h4⟩
        have : start ≠ o := by rintro rfl; exact hp h3
        exact ⟨by omega, by omega, h3, fun q hq hqo => h4 q (by omega) hqo⟩

theorem firstFrom_none_iff (p : Nat → Bool) (count start : Nat) :
    firstFrom p count start = none ↔ ∀ q, start ≤ q → q < start + count → p q = false := by
  induction count generalizing start with
  | zero => simp [firstFrom]; omega
  | succ count ih =>
    rw [firstFrom]
    by_cases hp : p start = true
    · rw [if_pos hp]
      simp only [reduceCtorEq, false_iff, not_forall]
      exact ⟨start, by omega, by omega, by simp [hp]⟩
    · rw [if_neg hp, ih]
      constructor
      · intro h q h1 h2
        by_cases e : q = start
        · rw [e]; exact Bool.eq_false_iff.2 hp
        · exact h q (by omega) (by omega)
      · exact fun h q h1 h2 => h q (by omega) (by omega)

theorem hd_le_one (b : Byte) : hd b ≤ 1 := by
  unfold hd
  split <;> omega

/-- The packing of eight hard bits, least significant first. -/
theorem packed_getLsbD : ∀ b0 b1 b2 b3 b4 b5 b6 b7 : Bool, ∀ j : Fin 8,
    (BitVec.ofNat 8 (b0.toNat + (b1.toNat <<< 1) + (b2.toNat <<< 2) + (b3.toNat <<< 3) + (b4.toNat <<< 4)
      + (b5.toNat <<< 5) + (b6.toNat <<< 6) + (b7.toNat <<< 7))).getLsbD j.val
      = [b0, b1, b2, b3, b4, b5, b6, b7].getD j.val false := by
  decide +kernel

theorem hd_eq_toNat (b : Byte) : hd b = (decide (b.toNat < 128)).toNat := by
  by_cases h : b.toNat < 128 <;> simp [hd, h]

/-- Bit j of HB(X, p) is the hard bit of the symbol at p + j. -/
theorem hardByte_getLsbD (X : Nat → Byte) (p : Nat) {j : Nat} (hj : j < 8) :
    (hardByte X p).getLsbD j = decide ((X (p + j)).toNat < 128) := by
  simp only [hardByte, hd_eq_toNat]
  rw [packed_getLsbD _ _ _ _ _ _ _ _ ⟨j, hj⟩]
  match j, hj with
  | 0, _ | 1, _ | 2, _ | 3, _ | 4, _ | 5, _ | 6, _ | 7, _ => rfl

/-- Two hard-decision bytes are equal exactly when their symbols have the same hard bits. -/
theorem hardByte_eq_iff (X Y : Nat → Byte) (p q : Nat) :
    hardByte X p = hardByte Y q ↔ ∀ j, j < 8 → ((X (p + j)).toNat < 128 ↔ (Y (q + j)).toNat < 128) := by
  constructor
  · intro h j hj
    have := congrArg (fun b => b.getLsbD j) h
    simp only [hardByte_getLsbD _ _ hj] at this
    simpa using this
  · intro h
    refine BitVec.eq_of_getLsbD_eq fun j hj => ?_
    rw [hardByte_getLsbD _ _ hj, hardByte_getLsbD _ _ hj]
    simpa using h j hj

theorem qualifies_iff (X : Nat → Byte) (len stride depth o : Nat) :
    qualifies X len stride depth o = true ↔
      o + stride * depth + 8 ≤ len ∧ ∀ k, 1 ≤ k → k ≤ depth → hardByte X (o + k * stride) = hardByte X o := by
  simp [qualifies, allUpTo_iff]

/-- What LOCATE answers when it finds a pattern (40_sync_detector.md R145). -/
theorem locate_some_iff (X : Nat → Byte) (len stride depth window o : Nat) (b : Byte) :
    locate X len stride depth window = some (o, b) ↔
      o + stride * depth < window ∧ qualifies X len stride depth o = true ∧ b = hardByte X o ∧
        ∀ q, q < o → qualifies X len stride depth q = false := by
  simp only [locate, Option.map_eq_some_iff, Prod.mk.injEq, firstFrom_some_iff]
  constructor
  · rintro ⟨q, ⟨-, h2, h3, h4⟩, rfl, rfl⟩
    exact ⟨by omega, h3, rfl, fun q hq => h4 q (by omega) hq⟩
  · rintro ⟨h1, h2, rfl, h4⟩
    exact ⟨o, ⟨by omega, by omega, h2, fun q _ hq => h4 q hq⟩, rfl, rfl⟩

/-- When LOCATE finds none (40_sync_detector.md R145). -/
theorem locate_none_iff (X : Nat → Byte) (len stride depth window : Nat) :
    locate X len stride depth window = none ↔
      ∀ o, o + stride * depth < window → qualifies X len stride depth o = false := by
  simp only [locate, Option.map_eq_none_iff, firstFrom_none_iff]
  constructor
  · exact fun h o ho => h o (by omega) (by omega)
  · exact fun h o _ ho => h o (by omega)

theorem lookAheadFrom_some_iff (snap : Nat → Byte) (n : Nat) (sync : Byte) (pos count start k : Nat) :
    lookAheadFrom snap n sync pos count start = some k ↔
      start ≤ k ∧ k < start + count ∧ pos + k * 80 + 80 ≤ n ∧ hardByte snap (pos + k * 80) = sync ∧
        ∀ q, start ≤ q → q < k → hardByte snap (pos + q * 80) ≠ sync := by
  induction count generalizing start with
  | zero => simp [lookAheadFrom]; omega
  | succ count ih =>
    rw [lookAheadFrom]
    by_cases hr : pos + start * 80 + 80 > n
    · rw [if_pos hr]
      simp only [reduceCtorEq, false_iff]
      rintro ⟨h1, _, h3, _⟩
      omega
    rw [if_neg hr]
    by_cases hb : hardByte snap (pos + start * 80) = sync
    · rw [if_pos hb, Option.some.injEq]
      constructor
      · rintro rfl
        exact ⟨by omega, by omega, by omega, hb, fun q h1 h2 => by omega⟩
      · rintro ⟨h1, _, _, _, h5⟩
        by_contra hne
        exact h5 start (by omega) (by omega) hb
    · rw [if_neg hb, ih]
      constructor
      · rintro ⟨h1, h2, h3, h4, h5⟩
        refine ⟨by omega, by omega, h3, h4, fun q hq hqk => ?_⟩
        by_cases e : q = start
        · rw [e]; exact hb
        · exact h5 q (by omega) hqk
      · rintro ⟨h1, h2, h3, h4, h5⟩
        have : start ≠ k := by rintro rfl; exact hb h4
        exact ⟨by omega, by omega, h3, h4, fun q hq hqk => h5 q (by omega) hqk⟩

theorem lookAheadFrom_none_iff (snap : Nat → Byte) (n : Nat) (sync : Byte) (pos count start : Nat) :
    lookAheadFrom snap n sync pos count start = none ↔
      ∀ q, start ≤ q → q < start + count → pos + q * 80 + 80 ≤ n → hardByte snap (pos + q * 80) ≠ sync := by
  induction count generalizing start with
  | zero => simp [lookAheadFrom]; omega
  | succ count ih =>
    rw [lookAheadFrom]
    by_cases hr : pos + start * 80 + 80 > n
    · rw [if_pos hr]
      simp only [true_iff]
      intro q h1 _ h3
      omega
    rw [if_neg hr]
    by_cases hb : hardByte snap (pos + start * 80) = sync
    · rw [if_pos hb]
      simp only [reduceCtorEq, false_iff, not_forall]
      exact ⟨start, by omega, by omega, by omega, by simpa using hb⟩
    · rw [if_neg hb, ih]
      constructor
      · intro h q h1 h2 h3
        by_cases e : q = start
        · rw [e]; exact hb
        · exact h q (by omega) (by omega) h3
      · exact fun h q h1 h2 h3 => h q (by omega) (by omega) h3

/-- The frame `confirm` finds: the first matching one from pos on, at most `la` periods ahead, whole in the buffer. -/
theorem confirm_some_iff (snap : Nat → Byte) (n la : Nat) (sync : Byte) (pos k : Nat) (hpos : pos + 80 ≤ n) :
    confirm snap n la sync pos = some k ↔
      k ≤ la ∧ pos + k * 80 + 80 ≤ n ∧ hardByte snap (pos + k * 80) = sync ∧
        ∀ q, q < k → hardByte snap (pos + q * 80) ≠ sync := by
  unfold confirm
  by_cases hb : hardByte snap pos = sync
  · rw [if_pos hb, Option.some.injEq]
    constructor
    · rintro rfl
      exact ⟨by omega, by omega, by simpa using hb, fun q hq => by omega⟩
    · rintro ⟨_, _, _, h⟩
      by_contra hne
      exact h 0 (by omega) (by simpa using hb)
  · rw [if_neg hb, lookAheadFrom_some_iff]
    constructor
    · rintro ⟨h1, h2, h3, h4, h5⟩
      refine ⟨by omega, h3, h4, fun q hq => ?_⟩
      by_cases e : q = 0
      · simpa [e] using hb
      · exact h5 q (by omega) hq
    · rintro ⟨h1, h2, h3, h4⟩
      have : k ≠ 0 := by rintro rfl; exact hb (by simpa using h3)
      exact ⟨by omega, by omega, h2, h3, fun q _ hq => h4 q hq⟩

/-- When `confirm` finds none: no frame from pos on within `la` periods and the buffer matches. -/
theorem confirm_none_iff (snap : Nat → Byte) (n la : Nat) (sync : Byte) (pos : Nat) (hpos : pos + 80 ≤ n) :
    confirm snap n la sync pos = none ↔
      ∀ q, q ≤ la → pos + q * 80 + 80 ≤ n → hardByte snap (pos + q * 80) ≠ sync := by
  unfold confirm
  by_cases hb : hardByte snap pos = sync
  · rw [if_pos hb]
    simp only [reduceCtorEq, false_iff, not_forall]
    exact ⟨0, by omega, by omega, by simpa using hb⟩
  · rw [if_neg hb, lookAheadFrom_none_iff]
    constructor
    · intro h q h1 h2
      by_cases e : q = 0
      · simpa [e] using hb
      · exact h q (by omega) (by omega) h2
    · exact fun h q _ h2 h3 => h q (by omega) h3

end Sys2Proof.Machine
end

