-- ==== Sys2Proof/Laws/State.lean ====
section
/-! SUPPORT. One lemma per field per named update of State, each true by rfl. -/

namespace Sys2Proof.Machine.State

variable (s : State)

@[simp] theorem complete_pending (o : CmdOutcome) : (s.complete o).pending = none := rfl
@[simp] theorem complete_done (o : CmdOutcome) : (s.complete o).done = true := rfl
@[simp] theorem complete_found (o : CmdOutcome) : (s.complete o).found = s.found := rfl
@[simp] theorem complete_err (o : CmdOutcome) : (s.complete o).err = s.err := rfl
@[simp] theorem complete_errSticky (o : CmdOutcome) : (s.complete o).errSticky = s.errSticky := rfl
@[simp] theorem complete_errCode (o : CmdOutcome) : (s.complete o).errCode = s.errCode := rfl
@[simp] theorem complete_outcome (o : CmdOutcome) : (s.complete o).outcome = o := rfl
@[simp] theorem complete_tableState (o : CmdOutcome) : (s.complete o).tableState = s.tableState := rfl
@[simp] theorem complete_lastOp (o : CmdOutcome) : (s.complete o).lastOp = s.lastOp := rfl
@[simp] theorem complete_ctrlDiffSat (o : CmdOutcome) : (s.complete o).ctrlDiffSat = s.ctrlDiffSat := rfl
@[simp] theorem complete_srcBase (o : CmdOutcome) : (s.complete o).srcBase = s.srcBase := rfl
@[simp] theorem complete_srcLen (o : CmdOutcome) : (s.complete o).srcLen = s.srcLen := rfl
@[simp] theorem complete_dstBase (o : CmdOutcome) : (s.complete o).dstBase = s.dstBase := rfl
@[simp] theorem complete_locStride (o : CmdOutcome) : (s.complete o).locStride = s.locStride := rfl
@[simp] theorem complete_locDepth (o : CmdOutcome) : (s.complete o).locDepth = s.locDepth := rfl
@[simp] theorem complete_locWindow (o : CmdOutcome) : (s.complete o).locWindow = s.locWindow := rfl
@[simp] theorem complete_resyncCfg (o : CmdOutcome) : (s.complete o).resyncCfg = s.resyncCfg := rfl
@[simp] theorem complete_syncOffset (o : CmdOutcome) : (s.complete o).syncOffset = s.syncOffset := rfl
@[simp] theorem complete_syncByte (o : CmdOutcome) : (s.complete o).syncByte = s.syncByte := rfl
@[simp] theorem complete_resultLen (o : CmdOutcome) : (s.complete o).resultLen = s.resultLen := rfl
@[simp] theorem complete_diffPrevI (o : CmdOutcome) : (s.complete o).diffPrevI = s.diffPrevI := rfl
@[simp] theorem complete_diffPrevQ (o : CmdOutcome) : (s.complete o).diffPrevQ = s.diffPrevQ := rfl
@[simp] theorem complete_sqrtArg (o : CmdOutcome) : (s.complete o).sqrtArg = s.sqrtArg := rfl
@[simp] theorem complete_sqrtRes (o : CmdOutcome) : (s.complete o).sqrtRes = s.sqrtRes := rfl
@[simp] theorem complete_mem (o : CmdOutcome) : (s.complete o).mem = s.mem := rfl
@[simp] theorem complete_symMemSize (o : CmdOutcome) : (s.complete o).symMemSize = s.symMemSize := rfl
@[simp] theorem complete_hostFault (o : CmdOutcome) : (s.complete o).hostFault = s.hostFault := rfl
@[simp] theorem complete_hostProgram (o : CmdOutcome) : (s.complete o).hostProgram = s.hostProgram := rfl
@[simp] theorem complete_schedule (o : CmdOutcome) : (s.complete o).schedule = s.schedule := rfl
@[simp] theorem complete_hostReceived (o : CmdOutcome) : (s.complete o).hostReceived = s.hostReceived := rfl
@[simp] theorem complete_draws (o : CmdOutcome) : (s.complete o).draws = s.draws := rfl

@[simp] theorem raiseError_pending (c : ErrCode) : (s.raiseError c).pending = none := rfl
@[simp] theorem raiseError_done (c : ErrCode) : (s.raiseError c).done = true := rfl
@[simp] theorem raiseError_found (c : ErrCode) : (s.raiseError c).found = s.found := rfl
@[simp] theorem raiseError_err (c : ErrCode) : (s.raiseError c).err = true := rfl
@[simp] theorem raiseError_errSticky (c : ErrCode) : (s.raiseError c).errSticky = true := rfl
@[simp] theorem raiseError_errCode (c : ErrCode) : (s.raiseError c).errCode = c := rfl
@[simp] theorem raiseError_outcome (c : ErrCode) : (s.raiseError c).outcome = .ok := rfl
@[simp] theorem raiseError_tableState (c : ErrCode) : (s.raiseError c).tableState = s.tableState := rfl
@[simp] theorem raiseError_lastOp (c : ErrCode) : (s.raiseError c).lastOp = s.lastOp := rfl
@[simp] theorem raiseError_ctrlDiffSat (c : ErrCode) : (s.raiseError c).ctrlDiffSat = s.ctrlDiffSat := rfl
@[simp] theorem raiseError_srcBase (c : ErrCode) : (s.raiseError c).srcBase = s.srcBase := rfl
@[simp] theorem raiseError_srcLen (c : ErrCode) : (s.raiseError c).srcLen = s.srcLen := rfl
@[simp] theorem raiseError_dstBase (c : ErrCode) : (s.raiseError c).dstBase = s.dstBase := rfl
@[simp] theorem raiseError_locStride (c : ErrCode) : (s.raiseError c).locStride = s.locStride := rfl
@[simp] theorem raiseError_locDepth (c : ErrCode) : (s.raiseError c).locDepth = s.locDepth := rfl
@[simp] theorem raiseError_locWindow (c : ErrCode) : (s.raiseError c).locWindow = s.locWindow := rfl
@[simp] theorem raiseError_resyncCfg (c : ErrCode) : (s.raiseError c).resyncCfg = s.resyncCfg := rfl
@[simp] theorem raiseError_syncOffset (c : ErrCode) : (s.raiseError c).syncOffset = s.syncOffset := rfl
@[simp] theorem raiseError_syncByte (c : ErrCode) : (s.raiseError c).syncByte = s.syncByte := rfl
@[simp] theorem raiseError_resultLen (c : ErrCode) : (s.raiseError c).resultLen = s.resultLen := rfl
@[simp] theorem raiseError_diffPrevI (c : ErrCode) : (s.raiseError c).diffPrevI = s.diffPrevI := rfl
@[simp] theorem raiseError_diffPrevQ (c : ErrCode) : (s.raiseError c).diffPrevQ = s.diffPrevQ := rfl
@[simp] theorem raiseError_sqrtArg (c : ErrCode) : (s.raiseError c).sqrtArg = s.sqrtArg := rfl
@[simp] theorem raiseError_sqrtRes (c : ErrCode) : (s.raiseError c).sqrtRes = s.sqrtRes := rfl
@[simp] theorem raiseError_mem (c : ErrCode) : (s.raiseError c).mem = s.mem := rfl
@[simp] theorem raiseError_symMemSize (c : ErrCode) : (s.raiseError c).symMemSize = s.symMemSize := rfl
@[simp] theorem raiseError_hostFault (c : ErrCode) : (s.raiseError c).hostFault = s.hostFault := rfl
@[simp] theorem raiseError_hostProgram (c : ErrCode) : (s.raiseError c).hostProgram = s.hostProgram := rfl
@[simp] theorem raiseError_schedule (c : ErrCode) : (s.raiseError c).schedule = s.schedule := rfl
@[simp] theorem raiseError_hostReceived (c : ErrCode) : (s.raiseError c).hostReceived = s.hostReceived := rfl
@[simp] theorem raiseError_draws (c : ErrCode) : (s.raiseError c).draws = s.draws := rfl

@[simp] theorem launch_pending (v : Word) : (s.launch v).pending = some v := rfl
@[simp] theorem launch_done (v : Word) : (s.launch v).done = false := rfl
@[simp] theorem launch_found (v : Word) : (s.launch v).found = false := rfl
@[simp] theorem launch_err (v : Word) : (s.launch v).err = false := rfl
@[simp] theorem launch_errSticky (v : Word) : (s.launch v).errSticky = s.errSticky := rfl
@[simp] theorem launch_errCode (v : Word) : (s.launch v).errCode = .noError := rfl
@[simp] theorem launch_outcome (v : Word) : (s.launch v).outcome = .ok := rfl
@[simp] theorem launch_tableState (v : Word) : (s.launch v).tableState = s.tableState := rfl
@[simp] theorem launch_lastOp (v : Word) : (s.launch v).lastOp = v.extractLsb' 0 8 := rfl
@[simp] theorem launch_ctrlDiffSat (v : Word) : (s.launch v).ctrlDiffSat = s.ctrlDiffSat := rfl
@[simp] theorem launch_srcBase (v : Word) : (s.launch v).srcBase = s.srcBase := rfl
@[simp] theorem launch_srcLen (v : Word) : (s.launch v).srcLen = s.srcLen := rfl
@[simp] theorem launch_dstBase (v : Word) : (s.launch v).dstBase = s.dstBase := rfl
@[simp] theorem launch_locStride (v : Word) : (s.launch v).locStride = s.locStride := rfl
@[simp] theorem launch_locDepth (v : Word) : (s.launch v).locDepth = s.locDepth := rfl
@[simp] theorem launch_locWindow (v : Word) : (s.launch v).locWindow = s.locWindow := rfl
@[simp] theorem launch_resyncCfg (v : Word) : (s.launch v).resyncCfg = s.resyncCfg := rfl
@[simp] theorem launch_syncOffset (v : Word) : (s.launch v).syncOffset = s.syncOffset := rfl
@[simp] theorem launch_syncByte (v : Word) : (s.launch v).syncByte = s.syncByte := rfl
@[simp] theorem launch_resultLen (v : Word) : (s.launch v).resultLen = s.resultLen := rfl
@[simp] theorem launch_diffPrevI (v : Word) : (s.launch v).diffPrevI = s.diffPrevI := rfl
@[simp] theorem launch_diffPrevQ (v : Word) : (s.launch v).diffPrevQ = s.diffPrevQ := rfl
@[simp] theorem launch_sqrtArg (v : Word) : (s.launch v).sqrtArg = s.sqrtArg := rfl
@[simp] theorem launch_sqrtRes (v : Word) : (s.launch v).sqrtRes = s.sqrtRes := rfl
@[simp] theorem launch_mem (v : Word) : (s.launch v).mem = s.mem := rfl
@[simp] theorem launch_symMemSize (v : Word) : (s.launch v).symMemSize = s.symMemSize := rfl
@[simp] theorem launch_hostFault (v : Word) : (s.launch v).hostFault = s.hostFault := rfl
@[simp] theorem launch_hostProgram (v : Word) : (s.launch v).hostProgram = s.hostProgram := rfl
@[simp] theorem launch_schedule (v : Word) : (s.launch v).schedule = s.schedule := rfl
@[simp] theorem launch_hostReceived (v : Word) : (s.launch v).hostReceived = s.hostReceived := rfl
@[simp] theorem launch_draws (v : Word) : (s.launch v).draws = s.draws := rfl

@[simp] theorem reportLength_pending (rp : Nat) : (s.reportLength rp).pending = s.pending := rfl
@[simp] theorem reportLength_done (rp : Nat) : (s.reportLength rp).done = s.done := rfl
@[simp] theorem reportLength_found (rp : Nat) : (s.reportLength rp).found = decide (rp > 0) := rfl
@[simp] theorem reportLength_err (rp : Nat) : (s.reportLength rp).err = s.err := rfl
@[simp] theorem reportLength_errSticky (rp : Nat) : (s.reportLength rp).errSticky = s.errSticky := rfl
@[simp] theorem reportLength_errCode (rp : Nat) : (s.reportLength rp).errCode = s.errCode := rfl
@[simp] theorem reportLength_outcome (rp : Nat) : (s.reportLength rp).outcome = s.outcome := rfl
@[simp] theorem reportLength_tableState (rp : Nat) : (s.reportLength rp).tableState = s.tableState := rfl
@[simp] theorem reportLength_lastOp (rp : Nat) : (s.reportLength rp).lastOp = s.lastOp := rfl
@[simp] theorem reportLength_ctrlDiffSat (rp : Nat) : (s.reportLength rp).ctrlDiffSat = s.ctrlDiffSat := rfl
@[simp] theorem reportLength_srcBase (rp : Nat) : (s.reportLength rp).srcBase = s.srcBase := rfl
@[simp] theorem reportLength_srcLen (rp : Nat) : (s.reportLength rp).srcLen = s.srcLen := rfl
@[simp] theorem reportLength_dstBase (rp : Nat) : (s.reportLength rp).dstBase = s.dstBase := rfl
@[simp] theorem reportLength_locStride (rp : Nat) : (s.reportLength rp).locStride = s.locStride := rfl
@[simp] theorem reportLength_locDepth (rp : Nat) : (s.reportLength rp).locDepth = s.locDepth := rfl
@[simp] theorem reportLength_locWindow (rp : Nat) : (s.reportLength rp).locWindow = s.locWindow := rfl
@[simp] theorem reportLength_resyncCfg (rp : Nat) : (s.reportLength rp).resyncCfg = s.resyncCfg := rfl
@[simp] theorem reportLength_syncOffset (rp : Nat) : (s.reportLength rp).syncOffset = s.syncOffset := rfl
@[simp] theorem reportLength_syncByte (rp : Nat) : (s.reportLength rp).syncByte = s.syncByte := rfl
@[simp] theorem reportLength_resultLen (rp : Nat) : (s.reportLength rp).resultLen = BitVec.ofNat 32 rp := rfl
@[simp] theorem reportLength_diffPrevI (rp : Nat) : (s.reportLength rp).diffPrevI = s.diffPrevI := rfl
@[simp] theorem reportLength_diffPrevQ (rp : Nat) : (s.reportLength rp).diffPrevQ = s.diffPrevQ := rfl
@[simp] theorem reportLength_sqrtArg (rp : Nat) : (s.reportLength rp).sqrtArg = s.sqrtArg := rfl
@[simp] theorem reportLength_sqrtRes (rp : Nat) : (s.reportLength rp).sqrtRes = s.sqrtRes := rfl
@[simp] theorem reportLength_mem (rp : Nat) : (s.reportLength rp).mem = s.mem := rfl
@[simp] theorem reportLength_symMemSize (rp : Nat) : (s.reportLength rp).symMemSize = s.symMemSize := rfl
@[simp] theorem reportLength_hostFault (rp : Nat) : (s.reportLength rp).hostFault = s.hostFault := rfl
@[simp] theorem reportLength_hostProgram (rp : Nat) : (s.reportLength rp).hostProgram = s.hostProgram := rfl
@[simp] theorem reportLength_schedule (rp : Nat) : (s.reportLength rp).schedule = s.schedule := rfl
@[simp] theorem reportLength_hostReceived (rp : Nat) : (s.reportLength rp).hostReceived = s.hostReceived := rfl
@[simp] theorem reportLength_draws (rp : Nat) : (s.reportLength rp).draws = s.draws := rfl

@[simp] theorem receive_pending (v : Word) : (s.receive v).pending = s.pending := rfl
@[simp] theorem receive_done (v : Word) : (s.receive v).done = s.done := rfl
@[simp] theorem receive_found (v : Word) : (s.receive v).found = s.found := rfl
@[simp] theorem receive_err (v : Word) : (s.receive v).err = s.err := rfl
@[simp] theorem receive_errSticky (v : Word) : (s.receive v).errSticky = s.errSticky := rfl
@[simp] theorem receive_errCode (v : Word) : (s.receive v).errCode = s.errCode := rfl
@[simp] theorem receive_outcome (v : Word) : (s.receive v).outcome = s.outcome := rfl
@[simp] theorem receive_tableState (v : Word) : (s.receive v).tableState = s.tableState := rfl
@[simp] theorem receive_lastOp (v : Word) : (s.receive v).lastOp = s.lastOp := rfl
@[simp] theorem receive_ctrlDiffSat (v : Word) : (s.receive v).ctrlDiffSat = s.ctrlDiffSat := rfl
@[simp] theorem receive_srcBase (v : Word) : (s.receive v).srcBase = s.srcBase := rfl
@[simp] theorem receive_srcLen (v : Word) : (s.receive v).srcLen = s.srcLen := rfl
@[simp] theorem receive_dstBase (v : Word) : (s.receive v).dstBase = s.dstBase := rfl
@[simp] theorem receive_locStride (v : Word) : (s.receive v).locStride = s.locStride := rfl
@[simp] theorem receive_locDepth (v : Word) : (s.receive v).locDepth = s.locDepth := rfl
@[simp] theorem receive_locWindow (v : Word) : (s.receive v).locWindow = s.locWindow := rfl
@[simp] theorem receive_resyncCfg (v : Word) : (s.receive v).resyncCfg = s.resyncCfg := rfl
@[simp] theorem receive_syncOffset (v : Word) : (s.receive v).syncOffset = s.syncOffset := rfl
@[simp] theorem receive_syncByte (v : Word) : (s.receive v).syncByte = s.syncByte := rfl
@[simp] theorem receive_resultLen (v : Word) : (s.receive v).resultLen = s.resultLen := rfl
@[simp] theorem receive_diffPrevI (v : Word) : (s.receive v).diffPrevI = s.diffPrevI := rfl
@[simp] theorem receive_diffPrevQ (v : Word) : (s.receive v).diffPrevQ = s.diffPrevQ := rfl
@[simp] theorem receive_sqrtArg (v : Word) : (s.receive v).sqrtArg = s.sqrtArg := rfl
@[simp] theorem receive_sqrtRes (v : Word) : (s.receive v).sqrtRes = s.sqrtRes := rfl
@[simp] theorem receive_mem (v : Word) : (s.receive v).mem = s.mem := rfl
@[simp] theorem receive_symMemSize (v : Word) : (s.receive v).symMemSize = s.symMemSize := rfl
@[simp] theorem receive_hostFault (v : Word) : (s.receive v).hostFault = s.hostFault := rfl
@[simp] theorem receive_hostProgram (v : Word) : (s.receive v).hostProgram = s.hostProgram := rfl
@[simp] theorem receive_schedule (v : Word) : (s.receive v).schedule = s.schedule := rfl
@[simp] theorem receive_hostReceived (v : Word) : (s.receive v).hostReceived = v :: s.hostReceived := rfl
@[simp] theorem receive_draws (v : Word) : (s.receive v).draws = s.draws := rfl

@[simp] theorem markHostFault_pending : (s.markHostFault).pending = s.pending := rfl
@[simp] theorem markHostFault_done : (s.markHostFault).done = s.done := rfl
@[simp] theorem markHostFault_found : (s.markHostFault).found = s.found := rfl
@[simp] theorem markHostFault_err : (s.markHostFault).err = s.err := rfl
@[simp] theorem markHostFault_errSticky : (s.markHostFault).errSticky = s.errSticky := rfl
@[simp] theorem markHostFault_errCode : (s.markHostFault).errCode = s.errCode := rfl
@[simp] theorem markHostFault_outcome : (s.markHostFault).outcome = s.outcome := rfl
@[simp] theorem markHostFault_tableState : (s.markHostFault).tableState = s.tableState := rfl
@[simp] theorem markHostFault_lastOp : (s.markHostFault).lastOp = s.lastOp := rfl
@[simp] theorem markHostFault_ctrlDiffSat : (s.markHostFault).ctrlDiffSat = s.ctrlDiffSat := rfl
@[simp] theorem markHostFault_srcBase : (s.markHostFault).srcBase = s.srcBase := rfl
@[simp] theorem markHostFault_srcLen : (s.markHostFault).srcLen = s.srcLen := rfl
@[simp] theorem markHostFault_dstBase : (s.markHostFault).dstBase = s.dstBase := rfl
@[simp] theorem markHostFault_locStride : (s.markHostFault).locStride = s.locStride := rfl
@[simp] theorem markHostFault_locDepth : (s.markHostFault).locDepth = s.locDepth := rfl
@[simp] theorem markHostFault_locWindow : (s.markHostFault).locWindow = s.locWindow := rfl
@[simp] theorem markHostFault_resyncCfg : (s.markHostFault).resyncCfg = s.resyncCfg := rfl
@[simp] theorem markHostFault_syncOffset : (s.markHostFault).syncOffset = s.syncOffset := rfl
@[simp] theorem markHostFault_syncByte : (s.markHostFault).syncByte = s.syncByte := rfl
@[simp] theorem markHostFault_resultLen : (s.markHostFault).resultLen = s.resultLen := rfl
@[simp] theorem markHostFault_diffPrevI : (s.markHostFault).diffPrevI = s.diffPrevI := rfl
@[simp] theorem markHostFault_diffPrevQ : (s.markHostFault).diffPrevQ = s.diffPrevQ := rfl
@[simp] theorem markHostFault_sqrtArg : (s.markHostFault).sqrtArg = s.sqrtArg := rfl
@[simp] theorem markHostFault_sqrtRes : (s.markHostFault).sqrtRes = s.sqrtRes := rfl
@[simp] theorem markHostFault_mem : (s.markHostFault).mem = s.mem := rfl
@[simp] theorem markHostFault_symMemSize : (s.markHostFault).symMemSize = s.symMemSize := rfl
@[simp] theorem markHostFault_hostFault : (s.markHostFault).hostFault = true := rfl
@[simp] theorem markHostFault_hostProgram : (s.markHostFault).hostProgram = s.hostProgram := rfl
@[simp] theorem markHostFault_schedule : (s.markHostFault).schedule = s.schedule := rfl
@[simp] theorem markHostFault_hostReceived : (s.markHostFault).hostReceived = s.hostReceived := rfl
@[simp] theorem markHostFault_draws : (s.markHostFault).draws = s.draws := rfl

@[simp] theorem takeTurn_pending : (s.takeTurn).pending = s.pending := rfl
@[simp] theorem takeTurn_done : (s.takeTurn).done = s.done := rfl
@[simp] theorem takeTurn_found : (s.takeTurn).found = s.found := rfl
@[simp] theorem takeTurn_err : (s.takeTurn).err = s.err := rfl
@[simp] theorem takeTurn_errSticky : (s.takeTurn).errSticky = s.errSticky := rfl
@[simp] theorem takeTurn_errCode : (s.takeTurn).errCode = s.errCode := rfl
@[simp] theorem takeTurn_outcome : (s.takeTurn).outcome = s.outcome := rfl
@[simp] theorem takeTurn_tableState : (s.takeTurn).tableState = s.tableState := rfl
@[simp] theorem takeTurn_lastOp : (s.takeTurn).lastOp = s.lastOp := rfl
@[simp] theorem takeTurn_ctrlDiffSat : (s.takeTurn).ctrlDiffSat = s.ctrlDiffSat := rfl
@[simp] theorem takeTurn_srcBase : (s.takeTurn).srcBase = s.srcBase := rfl
@[simp] theorem takeTurn_srcLen : (s.takeTurn).srcLen = s.srcLen := rfl
@[simp] theorem takeTurn_dstBase : (s.takeTurn).dstBase = s.dstBase := rfl
@[simp] theorem takeTurn_locStride : (s.takeTurn).locStride = s.locStride := rfl
@[simp] theorem takeTurn_locDepth : (s.takeTurn).locDepth = s.locDepth := rfl
@[simp] theorem takeTurn_locWindow : (s.takeTurn).locWindow = s.locWindow := rfl
@[simp] theorem takeTurn_resyncCfg : (s.takeTurn).resyncCfg = s.resyncCfg := rfl
@[simp] theorem takeTurn_syncOffset : (s.takeTurn).syncOffset = s.syncOffset := rfl
@[simp] theorem takeTurn_syncByte : (s.takeTurn).syncByte = s.syncByte := rfl
@[simp] theorem takeTurn_resultLen : (s.takeTurn).resultLen = s.resultLen := rfl
@[simp] theorem takeTurn_diffPrevI : (s.takeTurn).diffPrevI = s.diffPrevI := rfl
@[simp] theorem takeTurn_diffPrevQ : (s.takeTurn).diffPrevQ = s.diffPrevQ := rfl
@[simp] theorem takeTurn_sqrtArg : (s.takeTurn).sqrtArg = s.sqrtArg := rfl
@[simp] theorem takeTurn_sqrtRes : (s.takeTurn).sqrtRes = s.sqrtRes := rfl
@[simp] theorem takeTurn_mem : (s.takeTurn).mem = s.mem := rfl
@[simp] theorem takeTurn_symMemSize : (s.takeTurn).symMemSize = s.symMemSize := rfl
@[simp] theorem takeTurn_hostFault : (s.takeTurn).hostFault = s.hostFault := rfl
@[simp] theorem takeTurn_hostProgram : (s.takeTurn).hostProgram = s.hostProgram := rfl
@[simp] theorem takeTurn_schedule : (s.takeTurn).schedule = if s.busy then s.schedule.tail else s.schedule := rfl
@[simp] theorem takeTurn_hostReceived : (s.takeTurn).hostReceived = s.hostReceived := rfl
@[simp] theorem takeTurn_draws : (s.takeTurn).draws = s.draws := rfl

end Sys2Proof.Machine.State
end

