-- ==== Sys2Proof/Laws/Commands.lean ====
section
/-! SUPPORT. What a command can do, said once: it answers a next state, which is an error's or that of the command's own effect. -/

namespace Sys2Proof.Machine

/-- The checks a RESYNC or RESYNC_DEINTERLEAVE makes before RESYNC_CORE runs (60_exceptions.md R264). -/
abbrev ResyncAllowed (s : State) : Prop := s.retry ≠ 0 ∧ RegionValid s.symMemSize s.src s.n

/-- The end state of a command that completes normally: the command's own effect, under the checks it made. -/
def Completes : Instr → State → State → Prop
  | .nop, s, t => t = s.complete .ok
  | .sqrtInit, s, t => s.tableState = .uninit ∧ t = { s with tableState := .ready }.complete .ok
  | .sqrtRelease, s, t => s.tableState = .ready ∧ t = { s with tableState := .released }.complete .ok
  | .sqrtLookup, s, t => s.tableState = .ready ∧ -16384 ≤ s.sqrtOperand ∧ s.sqrtOperand ≤ 16384 ∧
      t = { s with sqrtRes := BitVec.ofInt 32 (ssqrt s.sqrtOperand) }.complete .ok
  | .diffDecode, s, t => s.tableState = .ready ∧ 2 ≤ s.n ∧ s.n % 2 = 0 ∧ RegionValid s.symMemSize s.src s.n ∧
      t = { s with
        mem := s.mem.writeBytes s.src
          (diffBytes s.ctrlDiffSat s.diffPrevI s.diffPrevQ (s.mem.readBytes s.src s.n))
        diffPrevI := (diffCarry s.diffPrevI s.diffPrevQ (s.mem.readBytes s.src s.n)).1
        diffPrevQ := (diffCarry s.diffPrevI s.diffPrevQ (s.mem.readBytes s.src s.n)).2 }.complete .ok
  | .syncLocate, s, t => RegionValid s.symMemSize s.src s.locateSpan ∧
      ((∃ o b, locate (s.sym s.src) s.locateSpan s.stride s.depth s.window = some (o, b) ∧
          t = { s with syncOffset := BitVec.ofNat 32 o, syncByte := b, found := true }.complete .ok) ∨
        (locate (s.sym s.src) s.locateSpan s.stride s.depth s.window = none ∧
          t = { s with syncOffset := 0, syncByte := 0, found := false }.complete .noSync))
  | .resync, s, t => ResyncAllowed s ∧
      t = s.resynchronized.complete (if s.compacted.length = 0 then .noSync else .ok)
  | .deinterleave, s, t => RegionValid s.symMemSize s.src s.n ∧ RegionValid s.symMemSize s.dst s.n ∧
      ¬ RegionOverlap s.src s.n s.dst s.n ∧
      t = { s with
        mem := s.mem.writeBytes s.dst (deinterleaved (s.sym s.src) s.n)
        resultLen := BitVec.ofNat 32 s.n
        found := false }.complete .ok
  | .resyncDeinterleave, s, t => ResyncAllowed s ∧ RegionValid s.symMemSize s.dst (maxOut s.n) ∧
      ¬ RegionOverlap s.src s.n s.dst (maxOut s.n) ∧
      ((s.compacted.length = 0 ∧ t = s.resynchronized.complete .noSync) ∨
        (s.compacted.length ≠ 0 ∧ s.n ≤ s.compacted.length ∧ t = s.resynchronized.complete .noShrink) ∨
        (s.compacted.length ≠ 0 ∧ s.compacted.length < s.n ∧
          t = { s.resynchronized with
            mem := s.resynchronized.mem.writeBytes s.dst
              (deinterleaved (s.resynchronized.sym s.src) s.compacted.length) }.complete .ok))

/-- Every command answers a next state: it raised one error, or it completed with its own effect (44_host_interface.md R246). -/
theorem exec_cases (i : Instr) (s : State) :
    ∃ t, exec i s = .next t ∧ ((∃ c, c ≠ .noError ∧ t = s.raiseError c) ∨ Completes i s t) := by
  cases i <;> simp only [exec, Completes, ResyncAllowed]
  case nop => exact ⟨_, rfl, .inr rfl⟩
  case sqrtInit =>
    unfold execSqrtInit
    split
    · exact ⟨_, rfl, .inl ⟨_, by decide, rfl⟩⟩
    · exact ⟨_, rfl, .inr ⟨by simp_all, rfl⟩⟩
  case sqrtRelease =>
    unfold execSqrtRelease
    split
    · exact ⟨_, rfl, .inl ⟨_, by decide, rfl⟩⟩
    · exact ⟨_, rfl, .inr ⟨by simp_all, rfl⟩⟩
  case sqrtLookup =>
    unfold execSqrtLookup
    split
    · exact ⟨_, rfl, .inl ⟨_, by decide, rfl⟩⟩
    split
    · exact ⟨_, rfl, .inl ⟨_, by decide, rfl⟩⟩
    · refine ⟨_, rfl, .inr ⟨by simp_all, ?_, ?_, rfl⟩⟩ <;> simp only [Config.sqrtMax] at * <;> omega
  case diffDecode =>
    unfold execDiffDecode
    split
    · exact ⟨_, rfl, .inl ⟨_, by decide, rfl⟩⟩
    split
    · exact ⟨_, rfl, .inl ⟨_, by decide, rfl⟩⟩
    split
    · exact ⟨_, rfl, .inl ⟨_, by decide, rfl⟩⟩
    · exact ⟨_, rfl, .inr ⟨by simp_all, by omega, by omega, not_not.1 ‹_›, rfl⟩⟩
  case syncLocate =>
    unfold execSyncLocate
    split
    · exact ⟨_, rfl, .inl ⟨_, by decide, rfl⟩⟩
    · split
      · rename_i o b hl
        exact ⟨_, rfl, .inr ⟨not_not.1 ‹_›, .inl ⟨o, b, hl, rfl⟩⟩⟩
      · rename_i hl
        exact ⟨_, rfl, .inr ⟨not_not.1 ‹_›, .inr ⟨hl, rfl⟩⟩⟩
  case resync =>
    unfold execResync
    split
    · exact ⟨_, rfl, .inl ⟨_, by decide, rfl⟩⟩
    split
    · exact ⟨_, rfl, .inl ⟨_, by decide, rfl⟩⟩
    · exact ⟨_, rfl, .inr ⟨⟨‹_›, not_not.1 ‹_›⟩, rfl⟩⟩
  case deinterleave =>
    unfold execDeinterleave
    split
    · exact ⟨_, rfl, .inl ⟨_, by decide, rfl⟩⟩
    split
    · exact ⟨_, rfl, .inl ⟨_, by decide, rfl⟩⟩
    split
    · exact ⟨_, rfl, .inl ⟨_, by decide, rfl⟩⟩
    · exact ⟨_, rfl, .inr ⟨not_not.1 ‹_›, not_not.1 ‹_›, ‹_›, rfl⟩⟩
  case resyncDeinterleave =>
    unfold execResyncDeinterleave
    split
    · exact ⟨_, rfl, .inl ⟨_, by decide, rfl⟩⟩
    split
    · exact ⟨_, rfl, .inl ⟨_, by decide, rfl⟩⟩
    split
    · exact ⟨_, rfl, .inl ⟨_, by decide, rfl⟩⟩
    split
    · exact ⟨_, rfl, .inl ⟨_, by decide, rfl⟩⟩
    rename_i h1 h2 h3 h4
    have checks : (s.retry ≠ 0 ∧ RegionValid s.symMemSize s.src s.n) ∧
        RegionValid s.symMemSize s.dst (maxOut s.n) ∧ ¬ RegionOverlap s.src s.n s.dst (maxOut s.n) :=
      ⟨⟨h1, not_not.1 h2⟩, not_not.1 h3, h4⟩
    simp only []
    split
    · exact ⟨_, rfl, .inr ⟨checks.1, checks.2.1, checks.2.2, .inl ⟨‹_›, rfl⟩⟩⟩
    split
    · exact ⟨_, rfl, .inr ⟨checks.1, checks.2.1, checks.2.2, .inr (.inl ⟨‹_›, ‹_›, rfl⟩)⟩⟩
    · exact ⟨_, rfl, .inr ⟨checks.1, checks.2.1, checks.2.2, .inr (.inr ⟨‹_›, by omega, rfl⟩)⟩⟩

theorem frameData_length (snap : Nat → Byte) (p : Nat) : (frameData snap p).length = 72 := by simp [frameData]

theorem frameData_getElem (snap : Nat → Byte) (p j : Nat) (h : j < (frameData snap p).length) :
    (frameData snap p)[j] = snap (p + 8 + j) := by simp [frameData]

/-- 72 data symbols per confirmed frame. -/
theorem flatMap_frameData_length (snap : Nat → Byte) (fs : List Nat) :
    (fs.flatMap (frameData snap)).length = 72 * fs.length := by
  induction fs with
  | nil => rfl
  | cons p fs ih => simp [ih, frameData_length]; omega

/-- Symbol 72k + j of the compacted data is data symbol j of the k-th confirmed frame. -/
theorem flatMap_frameData_getElem (snap : Nat → Byte) (fs : List Nat) (k j : Nat) (hk : k < fs.length) (hj : j < 72)
    (h : 72 * k + j < (fs.flatMap (frameData snap)).length) :
    (fs.flatMap (frameData snap))[72 * k + j] = snap (fs[k] + 8 + j) := by
  induction fs generalizing k with
  | nil => simp at hk
  | cons p fs ih =>
    simp only [List.flatMap_cons]
    cases k with
    | zero =>
      rw [List.getElem_append_left (by rw [frameData_length]; omega)]
      simp only [Nat.mul_zero, Nat.zero_add, frameData_getElem, List.getElem_cons_zero]
    | succ k =>
      rw [List.getElem_append_right (by rw [frameData_length]; omega)]
      have hk' : k < fs.length := by simpa using hk
      have hb : 72 * k + j < (fs.flatMap (frameData snap)).length := by
        rw [flatMap_frameData_length]
        omega
      have key := ih k hk' hb
      simp only [frameData_length, show 72 * (k + 1) + j - 72 = 72 * k + j by omega, List.getElem_cons_succ]
      exact key

@[simp] theorem deinterleaved_length (R : Nat → Byte) (len : Nat) : (deinterleaved R len).length = len := by
  simp [deinterleaved]

theorem deinterleaved_getElem (R : Nat → Byte) (len i : Nat) (h : i < (deinterleaved R len).length) :
    (deinterleaved R len)[i] = deinterleavedAt R len i := by simp [deinterleaved]

end Sys2Proof.Machine
end

