-- ==== Sys2Proof/Laws/Memory.lean ====
section
/-! SUPPORT. Symbol memory: read after write, what a write leaves alone, and that every operation keeps the canonical form and the bound on
addresses. -/

namespace Sys2Proof.Machine.Memory

/-- Every listed address lies below `size`. -/
abbrev Below (size : Nat) (m : Memory) : Prop := ∀ c ∈ m, c.1 < size

@[simp] theorem read_nil (a : Nat) : Memory.read [] a = Memory.unlisted := rfl

theorem wf_nil : Memory.wf [] := ⟨List.Pairwise.nil, by simp⟩

/-- An address no entry lists reads as unlisted. -/
theorem read_unlisted {m : Memory} {a : Nat} (h : ∀ c ∈ m, c.1 ≠ a) : m.read a = Memory.unlisted := by
  induction m with
  | nil => rfl
  | cons c m ih =>
    rw [Memory.read, if_neg fun e => h c (by simp) e.symm]
    exact ih fun d hd => h d (by simp [hd])

theorem wf_tail {c : Host.Cell} {m : Memory} (h : Memory.wf (c :: m)) : Memory.wf m :=
  ⟨h.1.of_cons, fun d hd => h.2 d (by simp [hd])⟩

theorem wf_head_lt {c : Host.Cell} {m : Memory} (h : Memory.wf (c :: m)) : ∀ d ∈ m, c.1 < d.1 :=
  (List.pairwise_cons.1 h.1).1

theorem wf_cons {a : Nat} {v : Byte} {m : Memory} (h : Memory.wf m) (hlt : ∀ d ∈ m, a < d.1) :
    Memory.wf (Memory.cons a v m) := by
  unfold Memory.cons
  split
  · exact h
  · refine ⟨List.pairwise_cons.2 ⟨hlt, h.1⟩, fun d hd => ?_⟩
    rcases List.mem_cons.1 hd with rfl | hd
    · assumption
    · exact h.2 d hd

/-- Where an entry of a written memory comes from. -/
theorem mem_write {m : Memory} {a : Nat} {v : Byte} {d : Host.Cell} (h : d ∈ m.write a v) : d = (a, v) ∨ d ∈ m := by
  induction m with
  | nil =>
    simp only [Memory.write, Memory.cons] at h
    split at h <;> simp_all
  | cons c m ih =>
    simp only [Memory.write, Memory.cons] at h
    split at h
    · split at h <;> simp_all
    · split at h
      · split at h
        · exact .inr (by simp [h])
        · rcases List.mem_cons.1 h with h | h
          · exact .inl h
          · exact .inr (by simp [h])
      · rcases List.mem_cons.1 h with h | h
        · exact .inr (by simp [h])
        · rcases ih h with h | h
          · exact .inl h
          · exact .inr (by simp [h])

/-- A write keeps the canonical form. -/
theorem write_wf {m : Memory} (h : m.wf) (a : Nat) (v : Byte) : (m.write a v).wf := by
  induction m with
  | nil => exact wf_cons wf_nil (by simp)
  | cons c m ih =>
    simp only [Memory.write]
    have hlt := wf_head_lt h
    split
    · refine wf_cons h fun d hd => ?_
      rcases List.mem_cons.1 hd with rfl | hd
      · assumption
      · exact Nat.lt_trans ‹_› (hlt d hd)
    · split
      · rename_i _ heq
        exact wf_cons (wf_tail h) (by rw [heq]; exact hlt)
      · refine ⟨List.pairwise_cons.2 ⟨fun d hd => ?_, (ih (wf_tail h)).1⟩, fun d hd => ?_⟩
        · rcases mem_write hd with rfl | hd
          · show c.1 < a
            omega
          · exact hlt d hd
        · rcases List.mem_cons.1 hd with rfl | hd
          · exact h.2 _ (by simp)
          · exact (ih (wf_tail h)).2 d hd

theorem read_cons_same {m : Memory} {a : Nat} {v : Byte} (hlt : ∀ d ∈ m, a < d.1) :
    (Memory.cons a v m).read a = v := by
  unfold Memory.cons
  split
  · rename_i hv
    rw [hv]
    exact read_unlisted fun d hd e => by have := hlt d hd; omega
  · simp [Memory.read]

theorem read_cons_other {m : Memory} {a b : Nat} {v : Byte} (h : b ≠ a) : (Memory.cons a v m).read b = m.read b := by
  unfold Memory.cons
  split
  · rfl
  · simp [Memory.read, h]

/-- Read after write: the same address gives the value written. -/
theorem read_write_same {m : Memory} (h : m.wf) (a : Nat) (v : Byte) : (m.write a v).read a = v := by
  induction m with
  | nil => exact read_cons_same (by simp)
  | cons c m ih =>
    have hlt := wf_head_lt h
    simp only [Memory.write]
    split
    · refine read_cons_same fun d hd => ?_
      rcases List.mem_cons.1 hd with rfl | hd
      · assumption
      · exact Nat.lt_trans ‹_› (hlt d hd)
    · split
      · rename_i _ heq
        exact read_cons_same (by rw [heq]; exact hlt)
      · rename_i _ hne
        rw [Memory.read, if_neg hne]
        exact ih (wf_tail h)

/-- Read after write: every other address reads as before. -/
theorem read_write_other (m : Memory) {a b : Nat} (v : Byte) (h : b ≠ a) : (m.write a v).read b = m.read b := by
  induction m with
  | nil => exact read_cons_other h
  | cons c m ih =>
    simp only [Memory.write]
    split
    · exact read_cons_other h
    · split
      · rename_i _ heq
        rw [read_cons_other h, Memory.read, if_neg (by omega)]
      · simp only [Memory.read, ih]

theorem read_write {m : Memory} (h : m.wf) (a b : Nat) (v : Byte) :
    (m.write a v).read b = if b = a then v else m.read b := by
  split
  · rename_i e
    rw [e, read_write_same h]
  · exact read_write_other m v ‹_›

theorem write_below {size : Nat} {m : Memory} (h : Below size m) {a : Nat} (ha : a < size) (v : Byte) :
    Below size (m.write a v) := fun d hd => by
  rcases mem_write hd with rfl | hd
  · exact ha
  · exact h d hd

/-- A run of writes keeps the canonical form. -/
theorem writeBytes_wf {m : Memory} (h : m.wf) (a : Nat) (bs : List Byte) : (m.writeBytes a bs).wf := by
  induction bs generalizing m a with
  | nil => exact h
  | cons b bs ih => exact ih (write_wf h a b) (a + 1)

theorem writeBytes_below {size : Nat} {m : Memory} (h : Below size m) {a : Nat} (bs : List Byte)
    (ha : a + bs.length ≤ size) : Below size (m.writeBytes a bs) := by
  induction bs generalizing m a with
  | nil => exact h
  | cons b bs ih =>
    rw [List.length_cons] at ha
    exact ih (write_below h (by omega) b) (by omega)

/-- Outside the written bytes every address reads as before. -/
theorem read_writeBytes_outside (m : Memory) {a b : Nat} (bs : List Byte) (h : b < a ∨ a + bs.length ≤ b) :
    (m.writeBytes a bs).read b = m.read b := by
  induction bs generalizing m a with
  | nil => rfl
  | cons c bs ih =>
    rw [List.length_cons] at h
    rw [Memory.writeBytes, ih (m.write a c) (by omega), read_write_other m c (by omega)]

/-- The i-th written byte reads back. -/
theorem read_writeBytes_inside {m : Memory} (h : m.wf) (a : Nat) (bs : List Byte) (i : Nat) (hi : i < bs.length) :
    (m.writeBytes a bs).read (a + i) = bs[i] := by
  induction bs generalizing m a i with
  | nil => simp at hi
  | cons c bs ih =>
    rw [Memory.writeBytes]
    cases i with
    | zero =>
      rw [read_writeBytes_outside _ _ (by omega), Nat.add_zero, read_write_same h]
      rfl
    | succ i =>
      have hi' : i < bs.length := by simpa using hi
      have := ih (write_wf h a c) (a + 1) i hi'
      rw [show a + (i + 1) = a + 1 + i by omega, this]
      rfl

@[simp] theorem readBytes_length (m : Memory) (a n : Nat) : (m.readBytes a n).length = n := by
  induction n generalizing a with
  | zero => rfl
  | succ n ih => simp [Memory.readBytes, ih]

theorem readBytes_getElem (m : Memory) (a n i : Nat) (h : i < (m.readBytes a n).length) :
    (m.readBytes a n)[i] = m.read (a + i) := by
  induction n generalizing a i with
  | zero => simp [Memory.readBytes] at h
  | succ n ih =>
    cases i with
    | zero => simp [Memory.readBytes]
    | succ i =>
      have := ih (a + 1) i (by simpa [Memory.readBytes] using h)
      simp only [Memory.readBytes, List.getElem_cons_succ, this]
      rw [show a + 1 + i = a + (i + 1) by omega]

theorem readBytes_append (m : Memory) (a i j : Nat) :
    m.readBytes a (i + j) = m.readBytes a i ++ m.readBytes (a + i) j := by
  induction i generalizing a with
  | zero => simp [Memory.readBytes]
  | succ i ih =>
    rw [show i + 1 + j = i + j + 1 by omega, Memory.readBytes, ih, Memory.readBytes, List.cons_append,
      show a + 1 + i = a + (i + 1) by omega]

theorem writeBytes_append (m : Memory) (a : Nat) (bs cs : List Byte) :
    m.writeBytes a (bs ++ cs) = (m.writeBytes a bs).writeBytes (a + bs.length) cs := by
  induction bs generalizing m a with
  | nil => rfl
  | cons b bs ih =>
    rw [List.cons_append, Memory.writeBytes, ih, Memory.writeBytes, List.length_cons,
      show a + 1 + bs.length = a + (bs.length + 1) by omega]

/-- Two memories that read alike on a region give the same bytes there. -/
theorem readBytes_congr {m k : Memory} {a n : Nat} (h : ∀ i, i < n → m.read (a + i) = k.read (a + i)) :
    m.readBytes a n = k.readBytes a n := by
  refine List.ext_getElem (by simp) fun i hi hi' => ?_
  rw [readBytes_getElem, readBytes_getElem]
  exact h i (by simpa using hi)

/-- Scrambling a region keeps the canonical form. -/
theorem scramble_wf {m : Memory} (h : m.wf) (d a n : Nat) : (m.scramble d a n).wf := by
  induction n generalizing m a with
  | zero => exact h
  | succ n ih => exact ih (write_wf h _ _) _

theorem scramble_below {size : Nat} {m : Memory} (h : Below size m) (d : Nat) {a n : Nat} (ha : a + n ≤ size) :
    Below size (m.scramble d a n) := by
  induction n generalizing m a with
  | zero => exact h
  | succ n ih => exact ih (write_below h (by omega) _) (by omega)

theorem read_scramble_outside (m : Memory) (d : Nat) {a n b : Nat} (h : b < a ∨ a + n ≤ b) :
    (m.scramble d a n).read b = m.read b := by
  induction n generalizing m a with
  | zero => rfl
  | succ n ih => rw [Memory.scramble, ih _ (by omega), read_write_other m _ (by omega)]

theorem scrambleRegions_wf {m : Memory} (h : m.wf) (d size : Nat) (rs : List (Nat × Nat)) :
    (m.scrambleRegions d size rs).wf := by
  induction rs generalizing m with
  | nil => exact h
  | cons r rs ih => exact ih (scramble_wf h _ _ _)

theorem scrambleRegions_below {size : Nat} {m : Memory} (h : Below size m) (d : Nat) (rs : List (Nat × Nat)) :
    Below size (m.scrambleRegions d size rs) := by
  induction rs generalizing m with
  | nil => exact h
  | cons r rs ih =>
    refine ih ?_
    by_cases hr : r.1 ≤ size
    · exact scramble_below h d (by omega)
    · rw [show min (r.1 + r.2) size - r.1 = 0 by omega]
      exact h

theorem read_scrambleRegions_outside (m : Memory) (d size : Nat) (rs : List (Nat × Nat)) {b : Nat}
    (h : ∀ r ∈ rs, b < r.1 ∨ r.1 + r.2 ≤ b) : (m.scrambleRegions d size rs).read b = m.read b := by
  induction rs generalizing m with
  | nil => rfl
  | cons r rs ih =>
    rw [Memory.scrambleRegions, ih _ fun q hq => h q (by simp [hq]), read_scramble_outside]
    have := h r (by simp)
    omega

end Sys2Proof.Machine.Memory
end

