-- ==== Sys2Proof/Laws/PerInstr.lean ====
section
/-! SUPPORT. The statement made of every command as syntax, one lemma per constructor. -/

namespace Sys2Proof.Laws.EncodedWord

/-- A command's word is legal (30_encoding.md R113), holds the command's opcode in bits 7:0 and zero above (R110), and decodes to the command
(R111). -/
def Statement (i : Instr) : Prop :=
  WellFormed.commandWord (encode i) = true ∧ opcodeField (encode i) = i.opcode ∧ reservedField (encode i) = 0 ∧
    decode (encode i) = .command i ∧ decodeTableWord 32 (encode i).toNat = some i

theorem nop : Statement .nop := by unfold Statement; decide
theorem sqrtInit : Statement .sqrtInit := by unfold Statement; decide
theorem sqrtRelease : Statement .sqrtRelease := by unfold Statement; decide
theorem sqrtLookup : Statement .sqrtLookup := by unfold Statement; decide
theorem diffDecode : Statement .diffDecode := by unfold Statement; decide
theorem syncLocate : Statement .syncLocate := by unfold Statement; decide
theorem resync : Statement .resync := by unfold Statement; decide
theorem deinterleave : Statement .deinterleave := by unfold Statement; decide
theorem resyncDeinterleave : Statement .resyncDeinterleave := by unfold Statement; decide

end Sys2Proof.Laws.EncodedWord
end

