-- ==== Sys2Proof/Laws/Sqrt.lean ====
section
/-! SUPPORT. `isqrt` is the truncated square root of 00_scope.md R13. -/

namespace Sys2Proof.Machine

theorem isqrtDigits_spec (k n : Nat) (h : n < 4 ^ k) :
    isqrtDigits k n * isqrtDigits k n ≤ n ∧ n < (isqrtDigits k n + 1) * (isqrtDigits k n + 1) := by
  induction k generalizing n with
  | zero =>
    simp only [pow_zero] at h
    have : n = 0 := by omega
    subst this
    simp [isqrtDigits]
  | succ k ih =>
    have hq : n / 4 < 4 ^ k := by
      rw [pow_succ] at h
      omega
    obtain ⟨hlo, hhi⟩ := ih (n / 4) hq
    simp only [isqrtDigits, isqrtDigit]
    generalize isqrtDigits k (n / 4) = r at hlo hhi
    have h4 : 4 * (n / 4) ≤ n ∧ n < 4 * (n / 4) + 4 := by omega
    split
    · exact ⟨by assumption, by nlinarith⟩
    · exact ⟨by nlinarith, by omega⟩

/-- `isqrt n` is the largest r with r·r ≤ n. -/
theorem isqrt_spec (n : Nat) : isqrt n * isqrt n ≤ n ∧ n < (isqrt n + 1) * (isqrt n + 1) := by
  refine isqrtDigits_spec _ n ?_
  have h : n < 2 ^ (n.log2 + 1) := Nat.lt_log2_self
  calc n < 2 ^ (n.log2 + 1) := h
    _ ≤ 2 ^ (2 * (n.log2 / 2 + 1)) := Nat.pow_le_pow_right (by omega) (by omega)
    _ = 4 ^ (n.log2 / 2 + 1) := by rw [pow_mul, show (2 : Nat) ^ 2 = 4 from rfl]

theorem isqrt_le_of_sq_le {r n : Nat} (h : r * r ≤ n) : r ≤ isqrt n := by
  have := (isqrt_spec n).2
  by_contra hlt
  have : isqrt n + 1 ≤ r := by omega
  nlinarith

theorem isqrt_lt_of_lt_sq {r n : Nat} (h : n < r * r) : isqrt n < r := by
  have := (isqrt_spec n).1
  by_contra hle
  have : r ≤ isqrt n := by omega
  nlinarith

/-- The root is determined by its two bounds. -/
theorem isqrt_unique {r n : Nat} (hlo : r * r ≤ n) (hhi : n < (r + 1) * (r + 1)) : isqrt n = r := by
  have := isqrt_le_of_sq_le hlo
  have := isqrt_lt_of_lt_sq hhi
  omega

theorem isqrt_mono {m n : Nat} (h : m ≤ n) : isqrt m ≤ isqrt n :=
  isqrt_le_of_sq_le (Nat.le_trans (isqrt_spec m).1 h)

@[simp] theorem isqrt_zero : isqrt 0 = 0 := by decide

theorem isqrt_le_128 {n : Nat} (h : n ≤ 16384) : isqrt n ≤ 128 := by
  have := isqrt_lt_of_lt_sq (r := 129) (n := n) (by omega)
  omega

theorem ssqrt_of_nonneg {a : Int} (h : 0 ≤ a) : ssqrt a = isqrt a.natAbs := if_pos h

theorem ssqrt_of_neg {a : Int} (h : a < 0) : ssqrt a = -isqrt a.natAbs := if_neg (by omega)

@[simp] theorem ssqrt_zero : ssqrt 0 = 0 := by decide

theorem ssqrt_neg (a : Int) : ssqrt (-a) = -ssqrt a := by
  rcases lt_trichotomy a 0 with h | rfl | h
  · rw [ssqrt_of_neg h, ssqrt_of_nonneg (by omega), Int.natAbs_neg, neg_neg]
  · simp
  · rw [ssqrt_of_nonneg (by omega : 0 ≤ a), ssqrt_of_neg (by omega), Int.natAbs_neg]

theorem natAbs_ssqrt (a : Int) : (ssqrt a).natAbs = isqrt a.natAbs := by
  unfold ssqrt
  split <;> simp

end Sys2Proof.Machine
end

