-- ==== Sys2Proof/Laws/Step.lean ====
section
/-! SUPPORT. What a step can do, said once. -/

namespace Sys2Proof.Machine

/-- The engine step always answers a next state: an error's or a command's own effect. -/
theorem engineStep_cases (s : State) (w : Word) (hw : s.pending = some w) :
    ∃ t, engineStep s = .next t ∧
      ((∃ c, c ≠ .noError ∧ t = s.raiseError c) ∨ ∃ i, decode w = .command i ∧ Completes i s t) := by
  unfold engineStep
  rw [hw]
  simp only []
  cases hd : decode w with
  | command i =>
    obtain ⟨t, ht, h⟩ := exec_cases i s
    exact ⟨t, ht, h.imp id fun hc => ⟨i, rfl, hc⟩⟩
  | illegal why => exact ⟨_, rfl, .inl ⟨.illegalCmd, by decide, rfl⟩⟩

/-- The mover is none exactly when neither agent has a step. -/
theorem mover_eq_none (s : State) : s.mover = none ↔ s.pending = none ∧ s.hostProgram = [] := by
  unfold State.mover
  cases s.pending <;> cases s.hostProgram <;> simp

/-- The engine moves only with a command pending (10_state.md R31). -/
theorem pending_of_mover_engine {s : State} (h : s.mover = some .engine) : ∃ w, s.pending = some w := by
  unfold State.mover at h
  cases hp : s.pending with
  | none => cases hh : s.hostProgram <;> simp [hp, hh] at h
  | some w => exact ⟨w, rfl⟩

/-- The host moves only with a transaction left. -/
theorem program_of_mover_host {s : State} (h : s.mover = some .host) : ∃ op rest, s.hostProgram = op :: rest := by
  unfold State.mover at h
  cases hh : s.hostProgram with
  | nil => cases hp : s.pending <;> simp [hp, hh] at h
  | cons op rest => exact ⟨op, rest, rfl⟩

/-- What a step can do: stay (idle), one host transaction, or the engine's step. -/
theorem step_cases {s t : State} (h : step s = .next t) :
    s.hostFault = false ∧
      ((s.mover = none ∧ t = s) ∨ (s.mover = some .host ∧ t = s.takeTurn.hostStep) ∨
        (s.mover = some .engine ∧ engineStep s.takeTurn = .next t)) := by
  unfold step at h
  cases hf : s.hostFault with
  | true => simp [hf] at h
  | false =>
    refine ⟨rfl, ?_⟩
    simp only [hf, Bool.false_eq_true, if_false] at h
    cases hm : s.mover with
    | none => simp only [hm, Host.Outcome.next.injEq] at h; exact .inl ⟨rfl, h.symm⟩
    | some a =>
      cases a with
      | host => simp only [hm, Host.Outcome.next.injEq] at h; exact .inr (.inl ⟨rfl, h.symm⟩)
      | engine => simp only [hm] at h; exact .inr (.inr ⟨rfl, h⟩)

/-- What a host transaction can do to the block (44_host_interface.md R240–R242; 60_exceptions.md R270). `u` is the state with the host's program
moved on. -/
theorem hostStep_cases (s : State) (op : HostOp) (rest : List HostOp) (hp : s.hostProgram = op :: rest) :
    let u : State := { s with hostProgram := rest }
    s.hostStep = u.markHostFault ∨ (∃ v, s.hostStep = u.receive v) ∨ (∃ v, s.hostStep = s.receive v) ∨
      (s.busy = false ∧ ∃ r v, s.hostStep = u.writeReg v r) ∨ (s.busy = false ∧ s.hostStep = u) ∨
      (∃ a bs, s.busy = false ∧ a + bs.length ≤ s.symMemSize ∧ s.hostStep = { u with mem := u.mem.writeBytes a bs }) ∨
      s.hostStep = u.resetInput := by
  intro u
  unfold State.hostStep
  rw [hp]
  cases op with
  | regRead off w =>
    simp only [State.hostRegRead]
    split
    · exact .inl rfl
    split
    · exact .inl rfl
    · exact .inr (.inl ⟨_, rfl⟩)
  | regWrite off w v =>
    simp only [State.hostRegWrite]
    split
    · exact .inl rfl
    split
    · exact .inl rfl
    · rename_i hb
      have hb : s.busy = false := by simpa using hb
      unfold State.writeOffset
      split
      · rename_i r _
        exact .inr (.inr (.inr (.inl ⟨hb, r, v, rfl⟩)))
      · exact .inr (.inr (.inr (.inr (.inl ⟨hb, rfl⟩))))
  | symRead a w =>
    simp only [State.hostSymRead]
    split
    · exact .inl rfl
    · exact .inr (.inl ⟨_, rfl⟩)
  | symWrite a w v =>
    simp only [State.hostSymWrite]
    split
    · exact .inl rfl
    · rename_i hb
      obtain ⟨hb, ha⟩ := not_or.1 hb
      have hlen : ∀ n x, (bytesOf n x).length = n := fun n => by
        induction n with
        | zero => simp [bytesOf]
        | succ n ih => simp [bytesOf, ih]
      refine .inr (.inr (.inr (.inr (.inr (.inl ⟨a, bytesOf w.bytes v.toNat, by simpa using hb, ?_, rfl⟩)))))
      rw [hlen]
      exact not_not.1 ha
  | poll =>
    simp only [State.hostPoll]
    split
    · exact .inr (.inr (.inl ⟨_, rfl⟩))
    · exact .inr (.inl ⟨_, rfl⟩)
  | reset => exact .inr (.inr (.inr (.inr (.inr (.inr rfl)))))

end Sys2Proof.Machine
end

