-- ==== Sys2Proof/Tests/Slice0.lean ====
section
/-! SUPPORT. The model's own tests, with results taken from spec/ (95_test_vectors.md unless a rule is named), and for every obligation that has
hypotheses a witness that meets them, at the ends of their ranges. -/

namespace Sys2Proof.Tests

open Sys2Proof Sys2Proof.Machine

/-! Many short theorems: elaborated one after another, they need no thread each. -/
set_option Elab.async false

/-- What a step's next state shows, if it is one. -/
def shown {α : Type} (o : Host.Outcome State Fault Refusal) (f : State → α) : Option α :=
  match o with
  | .next t => some (f t)
  | _ => none

/-- Reset, then `bytes` at address `a`. -/
def holding (a : Nat) (bytes : List Byte) : State := .powerOn (Memory.writeBytes [] a bytes)

/-- The command `i` launched on `s`, and its engine step. -/
def ran (i : Instr) (s : State) : Host.Outcome State Fault Refusal := step (s.withFetchWord 32 (encode i).toNat)

def SYNC : List Byte := [0xF0, 0xF0, 0x10, 0xF0, 0xF0, 0x10, 0x10, 0x10]

/-- The generator DATA(f) of the test vectors. -/
def DATA (f : Nat) : List Byte := (List.range 72).map fun j => BitVec.ofNat 8 ((72 * f + j) * 37 + 11)

/-- The generator FR(N) of the test vectors. -/
def FR (frames : Nat) : List Byte := (List.range frames).flatMap fun f => SYNC ++ DATA f

/-- The generator NOISE(k) of the test vectors. -/
def NOISE (k : Nat) : List Byte := (List.range k).map fun i => BitVec.ofNat 8 (91 * i + 5)

/-! ### WellFormed, decoding, encoding -/

theorem test_reservedClear_refuses_bit_8 : WellFormed.reservedClear 0x00000104 = false := by decide
theorem test_opcodeDefined_refuses_range_ends :
    ([0x04, 0x07, 0x09, 0x0F, 0x12, 0x17, 0x1A, 0xFF] : List Word).all (fun w => !WellFormed.opcodeDefined w) := by decide
theorem test_commandWord_refuses_both : WellFormed.commandWord 0x80000000 = false ∧ WellFormed.commandWord 0x07 = false := by decide
theorem test_symMemSize_refuses_range_ends :
    WellFormed.symMemSize 0 = false ∧ WellFormed.symMemSize 4294967297 = false ∧ WellFormed.symMemSize 4294967296 = true := by
  decide

/-! R110, R111: bits 31:8 zero, the opcode in bits 7:0, each written out. -/

theorem test_decode_nop : decode 0b00000000000000000000000000000000 = .command .nop := by decide
theorem test_decode_sqrtInit : decode 0b00000000000000000000000000000001 = .command .sqrtInit := by decide
theorem test_decode_sqrtRelease : decode 0b00000000000000000000000000000010 = .command .sqrtRelease := by decide
theorem test_decode_sqrtLookup : decode 0b00000000000000000000000000000011 = .command .sqrtLookup := by decide
theorem test_decode_diffDecode : decode 0b00000000000000000000000000001000 = .command .diffDecode := by decide
theorem test_decode_syncLocate : decode 0b00000000000000000000000000010000 = .command .syncLocate := by decide
theorem test_decode_resync : decode 0b00000000000000000000000000010001 = .command .resync := by decide
theorem test_decode_deinterleave : decode 0b00000000000000000000000000011000 = .command .deinterleave := by decide
theorem test_decode_resyncDeinterleave : decode 0b00000000000000000000000000011001 = .command .resyncDeinterleave := by decide

/-- V-ILL-3: of the 256 opcodes nine are commands. -/
theorem test_decode_defined_opcodes :
    ((List.range 256).filter fun op => (decodeTableWord 8 op).isSome) = [0x00, 0x01, 0x02, 0x03, 0x08, 0x10, 0x11, 0x18, 0x19] := by
  decide +kernel

/-- V-ILL-1, V-ILL-2. -/
theorem test_illegal_words :
    (decodeTableWord 32 0x104, decodeTableWord 32 0x07) = (none, none) ∧
      shown (step (State.reset.withFetchWord 32 0x104)) State.statusWord = some 0x0400011A ∧
      shown (step (State.reset.withFetchWord 32 0x07)) State.statusWord = some 0x0700011A := by
  decide +kernel

/-! ### Commands -/

/-- V-NOP-1: from STATUS 0x0801071A. -/
theorem test_nop_keeps_errSticky :
    shown (ran .nop { State.reset with lastOp := 0x08, tableState := .ready, errCode := .range, err := true, errSticky := true, done := true })
      State.statusWord = some 0x00010012 := by
  decide +kernel

/-- V-SQ-2. -/
theorem test_sqrtInit_from_uninit : shown (ran .sqrtInit State.reset) State.statusWord = some 0x01010002 := by decide +kernel
theorem test_sqrtInit_from_ready :
    shown (ran .sqrtInit { State.reset with tableState := .ready }) State.statusWord = some 0x0101031A := by decide +kernel
theorem test_sqrtRelease_from_ready :
    shown (ran .sqrtRelease { State.reset with tableState := .ready }) State.statusWord = some 0x02020002 := by decide +kernel
theorem test_sqrtRelease_from_uninit : shown (ran .sqrtRelease State.reset) State.statusWord = some 0x0200031A := by decide +kernel

/-- V-SQ-1. -/
theorem test_ssqrt_values :
    ([0, 3, 4, 15, 16, 300, 800, 16256, 16383, 16384, -1, -9, -16256, -16384].map ssqrt) =
      [0, 1, 2, 3, 4, 17, 28, 127, 127, 128, -1, -3, -127, -128] := by
  decide +kernel
theorem test_sqrtLookup_minus_nine :
    shown (ran .sqrtLookup { State.reset with tableState := .ready, sqrtArg := 0xFFFFFFF7 }) (fun t => (t.sqrtRes, t.statusWord)) =
      some (0xFFFFFFFD, 0x03010002) := by
  decide +kernel
theorem test_sqrtLookup_range :
    shown (ran .sqrtLookup { State.reset with tableState := .ready, sqrtArg := 0x4001 }) State.statusWord = some 0x0301061A := by
  decide +kernel

/-- V-DD-1. -/
theorem test_diffDecode_two_pairs :
    shown (ran .diffDecode { holding 0x100 [0x0A, 0x14, 0x1E, 0xD8] with tableState := .ready, srcBase := 0x100, srcLen := 4 })
      (fun t => (t.mem.readBytes 0x100 4, t.readReg .diffPrev, t.statusWord)) =
      some ([0x00, 0x00, 0x11, 0x1C], 0x0000D81E, 0x08010002) := by
  decide +kernel

/-- V-DD-2s. -/
theorem test_diffDecode_saturates :
    shown
      (ran .diffDecode
        { holding 0x100 [0x80, 0x80] with
          tableState := .ready, srcBase := 0x100, srcLen := 2, ctrlDiffSat := true, diffPrevI := 0x80, diffPrevQ := 0x80 })
      (fun t => t.mem.readBytes 0x100 2) = some [0x7F, 0x80] := by
  decide +kernel

/-- V-HD-1, V-HB-1, V-SL-8. -/
theorem test_hardByte_of_sync :
    ([0x00, 0x7F, 0x80, 0xFF].map hd) = [1, 1, 0, 0] ∧
      ((List.range 8).map (hardByte fun i => (FR 2).getD i 0)) = [0xE4, 0xF2, 0xF9, 0xFC, 0xFE, 0x7F, 0x3F, 0x1F] := by
  decide +kernel

/-- V-SL-1 with fewer frames: SYNC at 3 and at 3 + 80 after three symbols of noise, stride 80, depth 1, window 84 (R142, R147). -/
theorem test_syncLocate_skips_to_sync :
    shown
      (ran .syncLocate
        { holding 0x1000 (NOISE 3 ++ FR 2) with srcBase := 0x1000, locStride := 80, locDepth := 1, locWindow := 84 })
      (fun t => (t.syncOffset, t.syncByte, t.statusWord)) = some (3, 0xE4, 0x10000006) := by
  decide +kernel

/-- V-SL-7. -/
theorem test_syncLocate_range :
    (shown (ran .syncLocate { State.reset with srcBase := 0x7FFF00, locStride := 80, locWindow := 250 }) State.statusWord,
      shown (ran .syncLocate { State.reset with srcBase := 0x7FFF00, locStride := 80, locWindow := 249 }) (·.err)) =
      (some 0x1000071A, some false) := by
  decide +kernel

/-- V-RS-11. -/
theorem test_resync_three_frames :
    shown (ran .resync { holding 0x1000 (FR 3) with srcBase := 0x1000, srcLen := 240, resyncCfg := 0x00800300 })
      (fun t => (t.resultLen, t.statusWord, t.mem.readBytes 0x1000 4, t.mem.readBytes 0x1048 4)) =
      some (216, 0x11000006, [0x0B, 0x30, 0x55, 0x7A], [0x73, 0x98, 0xBD, 0xE2]) := by
  decide +kernel

/-- V-RS-14 and V-RS-15. -/
theorem test_resync_refused_and_empty :
    (shown (ran .resync { State.reset with resyncCfg := 0x00800004 }) State.statusWord, shown (ran .resync State.reset) State.statusWord) =
      (some 0x1100051A, some 0x11001002) := by
  decide +kernel

/-- V-DI-1. -/
theorem test_deinterleave_hundred :
    shown
      (ran .deinterleave
        { holding 0x100 ((List.range 100).map (BitVec.ofNat 8)) with srcBase := 0x100, srcLen := 100, dstBase := 0x200 })
      (fun t => (t.resultLen, t.statusWord, t.mem.filter fun c => 0x200 ≤ c.1)) =
      some (100, 0x18000002, [(0x224, 0x24), (0x248, 0x48)]) := by
  decide +kernel

/-- V-DI-6. -/
theorem test_deinterleave_overlap :
    (shown (ran .deinterleave { State.reset with srcBase := 0x100, srcLen := 200, dstBase := 0x150 }) (·.errCode),
      shown (ran .deinterleave { State.reset with srcBase := 0x100, srcLen := 200, dstBase := 0x1C8 }) (·.errCode)) =
      (some .overlap, some .noError) := by
  decide +kernel

/-- R187: five clean frames whose payloads are 0 but for two symbols. -/
theorem test_resyncDeinterleave_five_frames :
    shown
      (ran .resyncDeinterleave
        { State.reset with mem := [(0x108, 0x0B), (0x15C, 0x77)], srcBase := 0x100, srcLen := 400, dstBase := 0x400 })
      (fun t => (t.resultLen, t.statusWord, t.mem)) =
      some (360, 0x19000006, [(0x100, 0x0B), (0x14C, 0x77), (0x400, 0x0B)]) := by
  decide +kernel

/-- V-RD-4 and V-RD-5. -/
theorem test_resyncDeinterleave_destination_checks :
    (shown (ran .resyncDeinterleave { State.reset with srcBase := 0x100, srcLen := 400, dstBase := 0x28F }) (·.errCode),
      shown (ran .resyncDeinterleave { State.reset with srcBase := 0x100, srcLen := 400, dstBase := 0x7FFE99 }) (·.errCode)) =
      (some .overlap, some .range) := by
  decide +kernel

/-! ### The host's side -/

/-- V-REG-1, V-REG-2, V-REG-4. -/
theorem test_registers_read_back :
    ((State.reset.writeReg 0xFFFFFFFF .ctrl).readReg .ctrl, (State.reset.writeReg 0x12345678 .diffPrev).readReg .diffPrev,
      (State.reset.writeReg 0x00400205 .resyncCfg).acqDepth, (State.reset.writeReg 0x00400205 .resyncCfg).retry,
      (State.reset.writeReg 0x00400205 .resyncCfg).lookahead) = (0x00000001, 0x00005678, 5, 2, 64) := by
  decide +kernel

/-- V-RST-1, at the mapped offsets and the first and last unmapped ones. -/
theorem test_reset_reads :
    ([0x00, 0x04, 0x08, 0x24, 0x34, 0x3C, 0x40, 0xFC] : List (BitVec 8)).map State.reset.readOffset = [0, 0, 0, 0x00800304, 0, 0, 0, 0] := by
  decide +kernel

/-- V-HF-1, and the fault the next step ends in. -/
theorem test_write_while_busy :
    ({ State.reset.launch 0x08 with hostProgram := [.wr .srcLen 4], schedule := [.host] } : State).hostStep.hostFault = true ∧
      ∀ s : State, s.hostFault = true → step s = .fault .hostProtocol :=
  ⟨by decide +kernel, fun s h => by simp [step, h]⟩

/-- 20_memory.md R85: the byte at the lowest address is the least significant. -/
theorem test_symWrite_little_endian :
    (({ State.reset with hostProgram := [.symWrite 0x10 .four 0x11223344] } : State).hostStep.mem) =
      [(0x10, 0x44), (0x11, 0x33), (0x12, 0x22), (0x13, 0x11)] := by
  decide +kernel

/-- The same order in a read, and a STATUS read while a command is pending (10_state.md R35). -/
theorem test_host_reads :
    ({ State.reset with mem := [(0x10, 0x34), (0x11, 0x12)], hostProgram := [.symRead 0x10 .two] } : State).hostStep.hostReceived =
        [0x00001234] ∧
      ({ State.reset.launch 0x11 with hostProgram := [.rd .status] } : State).hostStep.hostReceived = [0x11000001] := by
  decide +kernel

/-- 30_encoding.md R115, R116: what the notation stands for. -/
theorem test_host_notation :
    HostOp.run .resync = [.regWrite 0x00 32 0x00000011, .poll] ∧ HostOp.setPrev 5 (-7) = .regWrite 0x34 32 0x0000F905 ∧
      HostOp.setCfg 4 3 0 = .regWrite 0x24 32 0x00000304 ∧
      HostOp.fill 0x100 [0x0A, 0x14] = [.symWrite 0x100 .one 0x0A, .symWrite 0x101 .one 0x14] := by
  decide +kernel

/-! ### Witnesses: the hypotheses of each obligation, met -/

theorem witness_IllegalWordRaisesIllegalCmd :
    State.reset.hostFault = false ∧
      ([0x04, 0x07, 0x09, 0x0F, 0x12, 0x17, 0x1A, 0xFF, 0x100, 0xFFFFFF00, 0x03, 0x08, 0x10, 0x11, 0x18, 0x19] : List Word).map
        (fun w => decide (w.toNat / 256 ≠ 0 ∨ (0x04 ≤ w.toNat % 256 ∧ w.toNat % 256 ≤ 0x07) ∨
          (0x09 ≤ w.toNat % 256 ∧ w.toNat % 256 ≤ 0x0F) ∨ (0x12 ≤ w.toNat % 256 ∧ w.toNat % 256 ≤ 0x17) ∨ 0x1A ≤ w.toNat % 256)) =
        [true, true, true, true, true, true, true, true, true, true, false, false, false, false, false, false] := by
  decide +kernel

theorem witness_EngineTurnRunsThePendingCommand :
    let s := State.reset.launch 0x19
    s.hostFault = false ∧ s.pending = some 0x19 ∧ s.mover = some .engine ∧ decode 0x19 = .command .resyncDeinterleave := by
  decide +kernel

theorem witness_LaunchedCommandRunsNext : State.reset.hostFault = false := by decide

theorem witness_CmdWriteLaunches :
    let s := { State.reset with hostProgram := [.regWrite 0x00 32 0xFFFFFFFF] }
    s.hostFault = false ∧ s.pending = none ∧ s.hostProgram = .regWrite 0x00 32 0xFFFFFFFF :: [] := by
  decide +kernel

theorem witness_IdleMachineKeepsItsState :
    State.reset.hostFault = false ∧ State.reset.pending = none ∧ State.reset.hostProgram = [] := by
  decide +kernel

theorem witness_StepStopsOnlyOnHostFault :
    State.reset.hostFault = false ∧ State.reset.markHostFault.hostFault = true := by decide +kernel

/-- The list of the statement has one entry per mapped offset. -/
theorem witness_RegisterReadsReturnTheMap :
    ∀ off ∈ ([0x00, 0x04, 0x08, 0x0C, 0x10, 0x14, 0x18, 0x1C, 0x20, 0x24, 0x28, 0x2C, 0x30, 0x34, 0x38, 0x3C] : List (BitVec 8)),
      let s := { State.reset with hostProgram := [.regRead off 32] }
      s.hostFault = false ∧ s.pending = none ∧ s.hostProgram = .regRead off 32 :: [] := by
  decide +kernel

/-- A command pending and the host's turn. The invariant holds of the launch from reset (witness_StepKeepsTheInvariant); the schedule and the program are
no part of it. -/
theorem witness_RegisterReadsReturnTheMap_busy :
    let s := { State.reset.launch 0x19 with hostProgram := [.regRead 0x04 32], schedule := [.host] }
    s.hostFault = false ∧ s.pending = some 0x19 ∧ s.mover = some .host ∧ s.hostProgram = .regRead 0x04 32 :: [] ∧ s.Inv := by
  refine ⟨rfl, rfl, rfl, rfl, ?_⟩
  exact {
    memCanonical := by decide, memInside := by decide, sizeLegal := by decide, busyFlags := by decide,
    busyLastOp := fun w h => by cases h; rfl, errHasCode := by decide, errSticks := by decide, errPlain := by decide,
    foundOk := by decide, neverNoShrink := by decide, sqrtResRange := by decide, resultFits := by decide,
    freshStatus := by decide }

theorem witness_WrittenRegistersReadBack :
    ∀ off ∈ ([0x08, 0x0C, 0x10, 0x14, 0x18, 0x1C, 0x20, 0x24, 0x34, 0x38] : List (BitVec 8)),
      let s := { State.reset with hostProgram := [.regWrite off 32 0xFFFFFFFF, .regRead off 32] }
      s.hostFault = false ∧ s.pending = none ∧ s.hostProgram = .regWrite off 32 0xFFFFFFFF :: .regRead off 32 :: [] := by
  decide +kernel

theorem witness_ReadOnlyAndUnmappedOffsetsIgnoreWrites :
    ∀ off ∈ ([0x04, 0x28, 0x2C, 0x30, 0x3C, 0x40, 0xFC] : List (BitVec 8)),
      let s := { State.reset with hostProgram := [.regWrite off 32 5] }
      let r := { State.reset with hostProgram := [.regRead off 32] }
      s.hostFault = false ∧ s.pending = none ∧ s.hostProgram = .regWrite off 32 5 :: [] ∧
        (off ∈ [(0x04 : BitVec 8), 0x28, 0x2C, 0x30, 0x3C] ∨ (0x40 ≤ off.toNat ∧ off.toNat % 4 = 0)) ∧
        (0x40 ≤ off.toNat → r.hostProgram = .regRead off 32 :: [] ∧ off.toNat % 4 = 0) := by
  decide +kernel

theorem witness_SymbolWritesReadBackLittleEndian :
    let s := { State.reset with hostProgram := [.symWrite 0x7FFFFC .four 0x80FF0001, .symRead 0x7FFFFC .four] }
    let r := { State.reset with hostProgram := [.symWrite 0x7FFFFF .one 0x1FF, .symRead 0x7FFFFF .one] }
    s.mem.wf ∧ s.hostFault = false ∧ s.pending = none ∧ 0x7FFFFC + 4 ≤ s.symMemSize ∧ 0x7FFFFF + 1 ≤ r.symMemSize ∧
      s.hostProgram = .symWrite 0x7FFFFC .four 0x80FF0001 :: .symRead 0x7FFFFC .four :: [] := by
  decide +kernel

/-- A lone read of the last two bytes. -/
theorem witness_SymbolWritesReadBackLittleEndian_read :
    let s := { State.reset with mem := [(0x7FFFFE, 0x34), (0x7FFFFF, 0x12)], hostProgram := [.symRead 0x7FFFFE .two] }
    s.hostFault = false ∧ s.pending = none ∧ 0x7FFFFE + 2 ≤ s.symMemSize ∧ s.hostProgram = .symRead 0x7FFFFE .two :: [] := by
  decide +kernel

/-- Each transaction is the host's to make, idle and while a command is pending; one outcome of each kind is met at the end of its range. -/
theorem witness_HostFaultExactlyOnProtocolViolations :
    (∀ op ∈ [HostOp.regRead 0x3C 32, .regRead 0x3D 32, .regRead 0x3C 16, .regWrite 0x00 32 0, .symRead 0x7FFFFE .two,
        .symRead 0x7FFFFF .two, .symWrite 0x800000 .one 0, .poll, .reset],
      let s := { State.reset with hostProgram := [op] }
      let b := { State.reset.launch 0x00 with hostProgram := [op], schedule := [.host] }
      s.hostFault = false ∧ s.hostProgram = op :: [] ∧ s.mover = some .host ∧
        b.hostFault = false ∧ b.hostProgram = op :: [] ∧ b.mover = some .host) ∧
      State.reset.markHostFault.hostFault = true := by
  decide +kernel

theorem witness_InterleavingsLeaveTheSameBlock :
    let s := { State.reset.launch 0x01 with hostProgram := [.regRead 0x04 32, .poll] }
    s.hostFault = false ∧ s.pending = some 0x01 ∧ s.hostProgram = .regRead 0x04 32 :: [.poll] := by
  decide +kernel

theorem witness_PollEndsAfterTheEngineStep :
    let s := { State.reset.launch 0x01 with hostProgram := [.poll], schedule := [.host, .host, .engine] }
    s.hostFault = false ∧ s.pending = some 0x01 ∧ s.hostProgram = .poll :: [] := by
  decide +kernel

/-- Idle. -/
theorem witness_ResetInputRestoresTheRegisters_idle :
    let s := { State.reset with hostProgram := [.reset] }
    s.hostFault = false ∧ s.hostProgram = .reset :: [] ∧ s.mover = some .host ∧ s.busy = false := by
  decide +kernel

/-- With a command pending, of those that could write memory and of the others; 0x150 lies just outside (0x100, 80), and 0x1FF just outside (0x200, 72). -/
theorem witness_ResetInputRestoresTheRegisters_busy :
    ([0x08, 0x10, 0x11, 0x18, 0x19, 0x104] : List Word).all
      (fun w =>
        let s := { State.reset.launch w with
          hostProgram := [.reset], schedule := [.host], srcBase := 0x100, srcLen := 80, dstBase := 0x200 }
        decide (s.hostFault = false ∧ s.hostProgram = .reset :: [] ∧ s.mover = some .host ∧ s.pending = some w ∧
          (0x150 < s.srcBase.toNat ∨ s.srcBase.toNat + s.srcLen.toNat ≤ 0x150) ∧
          (0x1FF < s.dstBase.toNat ∨ s.dstBase.toNat + 72 * (s.srcLen.toNat / 80) ≤ 0x1FF))) = true := by
  decide +kernel

theorem witness_PowerOnMeetsTheInvariant :
    let m : Memory := [(0, 0x80), (0x7FFFFF, 0x01)]
    m.wf ∧ ∀ c ∈ m, c.1 < Config.defaultSymMemSize := by
  decide +kernel

/-- The invariant holds of a state, and a step of it answers a next state. -/
theorem witness_StepKeepsTheInvariant :
    (State.reset.launch 0x19).Inv ∧ ∃ t, step (State.reset.launch 0x19) = .next t := by
  refine ⟨?_, _, rfl⟩
  exact {
    memCanonical := by decide, memInside := by decide, sizeLegal := by decide, busyFlags := by decide,
    busyLastOp := fun w h => by cases h; rfl, errHasCode := by decide, errSticks := by decide, errPlain := by decide,
    foundOk := by decide, neverNoShrink := by decide, sqrtResRange := by decide, resultFits := by decide,
    freshStatus := by decide }

theorem witness_MemoriesThatReadAlikeAreEqual :
    ∃ m k : Memory, m.wf ∧ k.wf ∧ ∀ a, m.read a = k.read a :=
  ⟨[(5, 0x01)], [(5, 0x01)], by decide, by decide, fun _ => rfl⟩

theorem witness_ErrStickyStaysUntilReset :
    ∃ t, step { State.reset with errSticky := true, hostProgram := [.reset] } = .next t ∧ t.errSticky = false := ⟨_, rfl, rfl⟩

theorem witness_ErrorsChangeOnlyStatus :
    State.reset.err = false ∧ ∃ t, exec .sqrtRelease State.reset = .next t ∧ t.err = true := ⟨rfl, _, rfl, rfl⟩

theorem witness_ChecksReportInTheirFixedOrder :
    State.reset.errCode = .noError ∧ (State.reset.launch 0x104).pending = some 0x104 ∧ decode 0x104 = .illegal .reservedBitsSet := by
  decide +kernel

/-- Each command answers a next state from reset, by its own effect or by an error. -/
theorem witness_commands_answer_a_next_state :
    ∀ i ∈ [Instr.nop, .sqrtInit, .sqrtRelease, .sqrtLookup, .diffDecode, .syncLocate, .resync, .deinterleave, .resyncDeinterleave],
      (shown (exec i State.reset) (·.done)) = some true := by
  decide +kernel

theorem witness_CommandsWriteOnlyTheirRegisters :
    (∃ t, exec .syncLocate State.reset = .next t) ∧ Instr.syncLocate ≠ .sqrtLookup ∧ Instr.syncLocate ≠ .diffDecode ∧
      Instr.syncLocate ∉ [Instr.resync, .deinterleave, .resyncDeinterleave] ∧ Instr.nop ≠ .syncLocate ∧
      Instr.syncLocate ∉ [Instr.sqrtInit, .sqrtRelease] ∧
      Instr.syncLocate ∉ [Instr.diffDecode, .resync, .deinterleave, .resyncDeinterleave] := by
  exact ⟨⟨_, rfl⟩, by decide, by decide, by decide, by decide, by decide, by decide⟩

theorem witness_EngineWritesOnlySymbolMemory :
    (∃ t, exec .resync State.reset = .next t) ∧ State.reset.symMemSize ≤ 0x800000 := ⟨⟨_, rfl⟩, by decide⟩

/-- Two memories that differ outside the symbol memory only. -/
theorem witness_EngineReadsOnlySymbolMemory :
    let m : Memory := [(0x800000, 0x01)]
    State.reset.mem.wf ∧ m.wf ∧ ∀ a, a < State.reset.symMemSize → m.read a = State.reset.mem.read a := by
  refine ⟨by decide, by decide, fun a h => ?_⟩
  have h : a < 0x800000 := h
  simp [Memory.read, State.reset, Nat.ne_of_lt h]

theorem witness_NopOnlyCompletes : State.reset.hostFault = false := by decide

theorem witness_SqrtInitBuildsTheTable :
    State.reset.tableState = .uninit ∧ ({ State.reset with tableState := .released } : State).tableState ≠ .uninit := by decide

theorem witness_SqrtReleaseReleasesTheTable :
    ({ State.reset with tableState := .ready } : State).tableState = .ready ∧ State.reset.tableState ≠ .ready := by decide

/-- The ends of the argument's range, and the first values outside. -/
theorem witness_SqrtLookupWritesTheSignedRoot :
    let s := fun v : Word => ({ State.reset with tableState := .ready, sqrtArg := v } : State)
    State.reset.tableState ≠ .ready ∧ (s 0).tableState = .ready ∧
      (16384 < (s 0x4001).sqrtArg.toInt) ∧ ((s 0xFFFFBFFF).sqrtArg.toInt < -16384) ∧
      (-16384 ≤ (s 0xFFFFC000).sqrtArg.toInt ∧ (s 0xFFFFC000).sqrtArg.toInt ≤ 16384) ∧
      (-16384 ≤ (s 0x4000).sqrtArg.toInt ∧ (s 0x4000).sqrtArg.toInt ≤ 16384) := by
  decide +kernel

theorem witness_SsqrtHasTheStatedProperties :
    (-16384 : Int) ≤ -16384 ∧ (-16384 : Int) ≤ 16384 ∧ (16384 : Int) ≤ 16384 ∧ ssqrt 16384 = 128 ∧ (0 : Int) ≤ 16384 := by
  decide +kernel

theorem witness_TableLifecycleIsOneWay :
    (∃ t, step (State.reset.launch 0x01) = .next t) ∧
      ({ State.reset with tableState := .ready } : State).tableState ≠ .uninit ∧ State.reset.tableState ≠ .ready :=
  ⟨⟨_, rfl⟩, by decide, by decide⟩

/-- Each clause at the ends of its range: no table, lengths 0, 1 and 3, a region that ends one byte past the memory, and one that ends with it. -/
theorem witness_DiffDecodeDecodesEveryPair :
    let s := fun a n : Word => ({ State.reset with tableState := .ready, srcBase := a, srcLen := n } : State)
    State.reset.mem.wf ∧ State.reset.tableState ≠ .ready ∧ (s 0 0).tableState = .ready ∧
      (s 0 0).srcLen.toNat < 2 ∧ (s 0 1).srcLen.toNat < 2 ∧ (s 0 3).srcLen.toNat % 2 ≠ 0 ∧
      (2 ≤ (s 0x7FFFFF 2).srcLen.toNat ∧ (s 0x7FFFFF 2).srcLen.toNat % 2 = 0 ∧
        (s 0x7FFFFF 2).symMemSize < (s 0x7FFFFF 2).srcBase.toNat + (s 0x7FFFFF 2).srcLen.toNat) ∧
      (s 0x7FFFFE 2).srcBase.toNat + (s 0x7FFFFE 2).srcLen.toNat ≤ (s 0x7FFFFE 2).symMemSize := by
  decide +kernel

theorem witness_DiffProductsStayInTheTable :
    (∃ t, exec .diffDecode State.reset = .next t) ∧ State.reset.errCode ≠ .sqrtArgRange := ⟨⟨_, rfl⟩, by decide⟩

theorem witness_ChunkedDecodingEqualsWholeDecoding :
    let s := { State.reset with tableState := .ready, srcBase := 0x7FFFFC, srcLen := 4 }
    s.mem.wf ∧ s.symMemSize ≤ 4294967296 ∧ s.tableState = .ready ∧ s.srcLen.toNat = 2 + 2 ∧
      s.srcBase.toNat + (2 + 2) ≤ s.symMemSize := by
  decide +kernel

theorem witness_DiffLoopInPlaceGivesTheSame :
    let s := { State.reset with tableState := .ready, srcBase := 0x7FFFFC, srcLen := 4 }
    s.mem.wf ∧ s.tableState = .ready ∧ 2 ≤ s.srcLen.toNat ∧ s.srcLen.toNat % 2 = 0 ∧
      s.srcBase.toNat + s.srcLen.toNat ≤ s.symMemSize := by
  decide +kernel

theorem witness_LocateReadsOnlyHardBitsInside :
    ∀ i, i < 8 → ((0x00 : Byte).toNat < 128 ↔ ((fun _ => (0x7F : Byte)) i : Byte).toNat < 128) := by decide

theorem witness_LocateOfInvertedHardBits :
    ∀ i, i < 8 → ((0x7F : Byte).toNat < 128 ↔ ¬ ((fun _ => (0x80 : Byte)) i : Byte).toNat < 128) := by decide

/-- In memory of zeros every symbol's hard bit is 1: offset 0 is the first to qualify, with byte 0xFF. -/
theorem zeros_show (p : Nat) : ShowsByte (fun _ => 0x00) p 0xFF := fun j hj =>
  iff_of_true ((by decide : ∀ j, j < 8 → (0xFF : Byte).getLsbD j = true) j hj) (by decide : (0x00 : Byte).toNat < 128)

/-- One byte past the memory; a region that ends with it and holds a match; and a window with no candidate. -/
theorem witness_SyncLocateReportsTheSearch :
    ((1 + 7 ≠ 0) ∧ State.reset.symMemSize < 0x7FFFF9 + (1 + 7)) ∧ 0x7FFFF8 + (1 + 7) ≤ State.reset.symMemSize ∧
      FirstQualifying (fun i => State.reset.mem.read (0x7FFFF8 + i)) (1 + 7) 80 0 1 0 0xFF ∧
      NoneQualifies (fun i => State.reset.mem.read i) 0 80 4 320 := by
  refine ⟨by decide, by decide, ⟨by decide, ⟨by decide, zeros_show 0, fun k h1 h2 => by omega⟩, fun q h => by omega⟩, fun o h => by omega⟩

theorem witness_SyncLocateCornerCases :
    let s := { State.reset with srcBase := 0x7FFFF8, locWindow := 1 }
    s.locDepth = 0 ∧ s.locStride = 0 ∧ 1 ≤ s.locWindow.toNat ∧ s.srcBase.toNat + s.locWindow.toNat + 7 ≤ s.symMemSize ∧
      State.reset.locWindow.toNat ≤ State.reset.locStride.toNat * State.reset.locDepth.toNat := by
  decide +kernel

/-- RETRY_PERIODS 0; a region one byte past the memory; an empty region beyond it; and one that ends with it. -/
theorem witness_ResyncCompactsTheConfirmedFrames :
    let s := fun a n : Word => ({ State.reset with srcBase := a, srcLen := n } : State)
    State.reset.mem.wf ∧ (0x00800004 : Word).toNat / 256 % 256 = 0 ∧ State.reset.resyncCfg.toNat / 256 % 256 ≠ 0 ∧
      (s 0x7FFFB1 80).symMemSize < (s 0x7FFFB1 80).srcBase.toNat + (s 0x7FFFB1 80).srcLen.toNat ∧
      (s 0xFFFFFFFF 0).srcLen.toNat = 0 ∧
      (s 0x7FFFB0 80).srcBase.toNat + (s 0x7FFFB0 80).srcLen.toNat ≤ (s 0x7FFFB0 80).symMemSize := by
  decide +kernel

/-- A run that ends at once, and one frame confirmed in 80 zeros with depth 0. -/
theorem witness_ResyncRunIsUnique :
    CoarseRun (fun _ => 0x00) 399 4 3 128 0 [] ∧ CoarseRun (fun _ => 0x00) 80 0 1 0 0 [0] := by
  refine ⟨.ends (by omega), ?_⟩
  have found : FirstQualifying (fun i => (fun _ : Nat => (0x00 : Byte)) (0 + i)) (80 - 0) 80 0 ((0 + 1) * 80) 0 0xFF :=
    ⟨by decide, ⟨by decide, zeros_show 0, fun k h1 h2 => by omega⟩, fun q h => by omega⟩
  have run : Tracking (fun _ => 0x00) 80 0 0xFF (0 + 0) [0] 80 :=
    .confirmed (k := 0) (by omega) (by omega) (zeros_show 0) (fun q h => by omega) (.noRoom (by omega))
  exact .acquired (gs := []) (by omega) found run (.ends (by omega))

theorem witness_ResyncEndsWithinItsBound : 1 ≤ 1 := by decide

theorem witness_ResyncInPlaceEqualsTheSnapshot : Memory.wf [(0, 0x80), (1, 0x01)] := by decide

theorem witness_ResyncShrinksItsInput :
    let s := { State.reset with srcBase := 0x7FFFB0, srcLen := 80 }
    s.retry ≠ 0 ∧ s.srcBase.toNat + s.srcLen.toNat ≤ s.symMemSize := by
  decide +kernel

theorem witness_NoAcquisitionMeansNoWrite :
    let s := { State.reset with srcLen := 399 }
    s.retry ≠ 0 ∧ s.srcBase.toNat + s.srcLen.toNat ≤ s.symMemSize ∧
      ∀ k, k * (s.retry * 80) + (s.acqDepth + 1) * 80 ≤ s.srcLen.toNat →
        NoneQualifies (fun i => s.mem.read (s.srcBase.toNat + (k * (s.retry * 80) + i))) (s.srcLen.toNat - k * (s.retry * 80)) 80
          s.acqDepth ((s.acqDepth + 1) * 80) := by
  refine ⟨by decide, by decide, fun k h => ?_⟩
  have h : k * 240 + 400 ≤ 399 := h
  omega

/-- Source and destination past the memory, overlapping by one byte, empty, and adjacent. -/
theorem witness_DeinterleaveFillsTheDestination :
    let s := fun a d n : Word => ({ State.reset with srcBase := a, dstBase := d, srcLen := n } : State)
    let fits := fun (t : State) (b : Word) => b.toNat + t.srcLen.toNat ≤ t.symMemSize
    let meet := fun t : State => t.srcLen.toNat > 0 ∧ t.srcBase.toNat < t.dstBase.toNat + t.srcLen.toNat ∧
      t.dstBase.toNat < t.srcBase.toNat + t.srcLen.toNat
    State.reset.mem.wf ∧ ¬ fits (s 0x7FFFFF 0 2) 0x7FFFFF ∧
      (fits (s 0 0x7FFFFF 2) 0 ∧ ¬ fits (s 0 0x7FFFFF 2) 0x7FFFFF) ∧
      (fits (s 0x100 0x101 2) 0x100 ∧ fits (s 0x100 0x101 2) 0x101 ∧ meet (s 0x100 0x101 2)) ∧
      ¬ meet (s 0x100 0x100 0) ∧
      (fits (s 0x7FFFFC 0x7FFFFE 2) 0x7FFFFC ∧ fits (s 0x7FFFFC 0x7FFFFE 2) 0x7FFFFE ∧ ¬ meet (s 0x7FFFFC 0x7FFFFE 2)) := by
  decide +kernel

theorem witness_DeinterleaveInvertsOnFilledPositions :
    (∀ i, i < 37 → dsrc i < 37 → (fun _ => (0x05 : Byte)) (dsrc i) = (fun _ => (0x05 : Byte)) i) ∧ dsrc 36 < 37 ∧ ¬ dsrc 35 < 37 := by
  decide +kernel

/-- RETRY_PERIODS 0; the source past the memory; the destination of MAXOUT(80) = 72 bytes past it; both inside and overlapping by one byte; adjacent,
without a frame and with one. -/
theorem witness_ResyncDeinterleaveComposesTheTwo :
    let s := fun a d n : Word => ({ State.reset with srcBase := a, dstBase := d, srcLen := n } : State)
    let srcOk := fun t : State => t.srcLen.toNat = 0 ∨ t.srcBase.toNat + t.srcLen.toNat ≤ t.symMemSize
    let mo := fun t : State => 72 * (t.srcLen.toNat / 80)
    let dstOk := fun t : State => mo t = 0 ∨ t.dstBase.toNat + mo t ≤ t.symMemSize
    let meet := fun t : State => t.srcLen.toNat > 0 ∧ mo t > 0 ∧ t.srcBase.toNat < t.dstBase.toNat + mo t ∧
      t.dstBase.toNat < t.srcBase.toNat + t.srcLen.toNat
    State.reset.mem.wf ∧ (0x00800004 : Word).toNat / 256 % 256 = 0 ∧ State.reset.resyncCfg.toNat / 256 % 256 ≠ 0 ∧
      ¬ srcOk (s 0x7FFFB1 0 80) ∧ (srcOk (s 0 0x7FFFB9 80) ∧ ¬ dstOk (s 0 0x7FFFB9 80)) ∧
      (srcOk (s 0x100 0x14F 80) ∧ dstOk (s 0x100 0x14F 80) ∧ meet (s 0x100 0x14F 80)) ∧
      (srcOk (s 0x100 0x150 80) ∧ dstOk (s 0x100 0x150 80) ∧ ¬ meet (s 0x100 0x150 80)) ∧
      (srcOk (s 0x100 0x290 400) ∧ dstOk (s 0x100 0x290 400) ∧ ¬ meet (s 0x100 0x290 400)) := by
  decide +kernel

theorem witness_NoShrinkNeverOccurs : ∃ t, exec .resyncDeinterleave State.reset = .next t := ⟨_, rfl⟩

/-- Five frames of zeros up to the end of the memory. -/
theorem witness_CleanStreamIsRecoveredWhole_five :
    let s := { State.reset with srcBase := 0x7FFE70, srcLen := 400, dstBase := 0x7FFD08 }
    s.mem.wf ∧ s.resyncCfg = 0x00800304 ∧ s.srcLen.toNat = 80 * 5 ∧ s.srcBase.toNat + 80 * 5 ≤ s.symMemSize ∧
      s.dstBase.toNat + 72 * 5 ≤ s.symMemSize ∧ s.dstBase.toNat + 72 * 5 ≤ s.srcBase.toNat ∧
      ∀ f j, f < 5 → j < 8 →
        ((s.mem.read (s.srcBase.toNat + (80 * f + j))).toNat < 128 ↔ (s.mem.read (s.srcBase.toNat + j)).toNat < 128) :=
  ⟨by decide, rfl, rfl, by decide, by decide, by decide, fun _ _ _ _ => Iff.rfl⟩

/-- Four frames, the destination behind the source. -/
theorem witness_CleanStreamIsRecoveredWhole_four :
    let s := { State.reset with srcLen := 320, dstBase := 320 }
    s.srcLen.toNat = 80 * 4 ∧ s.srcBase.toNat + 80 * 4 ≤ s.symMemSize ∧ s.dstBase.toNat + 72 * 4 ≤ s.symMemSize ∧
      s.srcBase.toNat + 80 * 4 ≤ s.dstBase.toNat := by
  decide +kernel

end Sys2Proof.Tests
end

namespace Sys2Proof.Machine

theorem busy_of_pending {s : State} {w : Word} (hw : s.pending = some w) : s.busy = true := by
  rw [State.busy, hw, Option.isSome_some]

/-! ### The machine at rest (10_state.md R31, 44_host_interface.md R243) -/

/-- With no command pending a step uses up no entry of the schedule. -/
theorem takeTurn_of_idle {s : State} (hi : s.pending = none) : s.takeTurn = s := by
  rw [State.takeTurn, if_neg (by simp [hi])]

theorem mover_of_idle {s : State} {op : HostOp} {rest : List HostOp} (hi : s.pending = none)
    (hp : s.hostProgram = op :: rest) : s.mover = some .host := by
  simp [State.mover, hi, hp]

theorem step_of_mover_none {s : State} (hf : s.hostFault = false) (hm : s.mover = none) : step s = .next s := by
  simp [step, hf, hm]

theorem step_of_mover_host {s : State} (hf : s.hostFault = false) (hm : s.mover = some .host) :
    step s = .next s.takeTurn.hostStep := by
  simp [step, hf, hm]

/-- While BUSY = 0 a step is the host's next transaction. -/
theorem step_of_idle {s : State} {op : HostOp} {rest : List HostOp} (hf : s.hostFault = false) (hi : s.pending = none)
    (hp : s.hostProgram = op :: rest) : step s = .next s.hostStep := by
  rw [step_of_mover_host hf (mover_of_idle hi hp), takeTurn_of_idle hi]

/-- Settles O8: neither agent has a step. -/
theorem idleMachineKeepsItsState : Obligations.IdleMachineKeepsItsState := by
  intro s hf hi hp
  exact step_of_mover_none hf ((mover_eq_none s).2 ⟨hi, hp⟩)

/-! ### Register accesses while idle (10_state.md R50, R52; 44_host_interface.md R240, R241) -/

/-- A well-formed register write while BUSY = 0 is the write of its offset. -/
theorem hostRegWrite_of_idle {s : State} {off : BitVec 8} (v : Word) (hi : s.pending = none) (hoff : off.toNat % 4 = 0) :
    s.hostRegWrite off 32 v = s.writeOffset off v := by
  simp [State.hostRegWrite, hi, hoff]

/-- A well-formed register read while BUSY = 0 gives the host the value at its offset. -/
theorem hostRegRead_of_idle {s : State} {off : BitVec 8} (hi : s.pending = none) (hoff : off.toNat % 4 = 0) :
    s.hostRegRead off 32 = s.receive (s.readOffset off) := by
  simp [State.hostRegRead, hi, hoff]

theorem step_regWrite_of_idle {s : State} {off : BitVec 8} {v : Word} {rest : List HostOp} (hf : s.hostFault = false)
    (hi : s.pending = none) (hoff : off.toNat % 4 = 0) (hp : s.hostProgram = .regWrite off 32 v :: rest) :
    step s = .next (State.writeOffset { s with hostProgram := rest } off v) := by
  rw [step_of_idle hf hi hp, State.hostStep, hp]
  exact congrArg _ (hostRegWrite_of_idle v hi hoff)

theorem step_regRead_of_idle {s : State} {off : BitVec 8} {rest : List HostOp} (hf : s.hostFault = false)
    (hi : s.pending = none) (hoff : off.toNat % 4 = 0) (hp : s.hostProgram = .regRead off 32 :: rest) :
    step s = .next
      (State.receive { s with hostProgram := rest } (State.readOffset { s with hostProgram := rest } off)) := by
  rw [step_of_idle hf hi hp, State.hostStep, hp]
  exact congrArg _ (hostRegRead_of_idle hi hoff)

theorem atOffset_of_unmapped {off : BitVec 8} (h : 0x40 ≤ off.toNat) : Reg.atOffset off = none := by
  unfold Reg.atOffset
  split
  case h_17 => rfl
  all_goals omega

theorem readOffset_of_unmapped (s : State) {off : BitVec 8} (h : 0x40 ≤ off.toNat) : s.readOffset off = 0 := by
  rw [State.readOffset, atOffset_of_unmapped h]

theorem writeOffset_of_unmapped (s : State) {off : BitVec 8} (v : Word) (h : 0x40 ≤ off.toNat) :
    s.writeOffset off v = s := by
  rw [State.writeOffset, atOffset_of_unmapped h]

/-- The five read-only registers stand at aligned offsets, and a write to one changes nothing (10_state.md R52). -/
theorem writeOffset_of_readOnly (s : State) {off : BitVec 8} (v : Word)
    (h : off ∈ [(0x04 : BitVec 8), 0x28, 0x2C, 0x30, 0x3C]) : off.toNat % 4 = 0 ∧ s.writeOffset off v = s := by
  simp only [List.mem_cons, List.not_mem_nil, or_false] at h
  rcases h with rfl | rfl | rfl | rfl | rfl <;> exact ⟨rfl, rfl⟩

/-- Settles O12, from what a write and a read of such an offset do. -/
theorem readOnlyAndUnmappedOffsetsIgnoreWrites : Obligations.ReadOnlyAndUnmappedOffsetsIgnoreWrites := by
  intro s off v rest hf hi
  constructor
  · rintro (hro | ⟨hun, hoff⟩) hp
    · obtain ⟨hoff, hw⟩ := writeOffset_of_readOnly { s with hostProgram := rest } v hro
      rw [step_regWrite_of_idle hf hi hoff hp, hw]
    · rw [step_regWrite_of_idle hf hi hoff hp, writeOffset_of_unmapped _ v hun]
  · intro hun hoff hp
    rw [step_regRead_of_idle hf hi hoff hp, readOffset_of_unmapped _ hun]
    rfl

/-! ### The STATUS word (10_state.md R34) -/

theorem toNat_append_eq {m n : Nat} (x : BitVec m) (y : BitVec n) : (x ++ y).toNat = x.toNat * 2 ^ n + y.toNat := by
  rw [BitVec.toNat_append, ← Nat.shiftLeft_add_eq_or_of_lt y.isLt, Nat.shiftLeft_eq]

theorem getLsbD_eq_of_toNat {n : Nat} {w : BitVec n} {i : Nat} {b : Bool} (h : w.toNat / 2 ^ i % 2 = b.toNat) :
    w.getLsbD i = b := by
  rw [← BitVec.testBit_toNat, Nat.testBit_eq_decide_div_mod_eq, h]
  cases b <;> rfl

theorem extractLsb'_toNat_eq_div_mod {n : Nat} (w : BitVec n) (lo len : Nat) :
    (w.extractLsb' lo len).toNat = w.toNat / 2 ^ lo % 2 ^ len := by
  rw [BitVec.extractLsb'_toNat, Nat.shiftRight_eq_div_pow]

/-- The STATUS word as a number: each field times the weight of its lowest bit. -/
theorem statusWord_toNat (s : State) :
    s.statusWord.toNat =
      s.lastOp.toNat * 2 ^ 24 + s.tableState.code.toNat * 2 ^ 16 + s.outcome.code.toNat * 2 ^ 12 +
        s.errCode.code.toNat * 2 ^ 8 + s.errSticky.toNat * 2 ^ 4 + s.err.toNat * 2 ^ 3 + s.found.toNat * 2 ^ 2 +
        s.done.toNat * 2 + s.busy.toNat := by
  have zero (n : Nat) : (0 : BitVec n).toNat = 0 := BitVec.toNat_zero
  simp only [State.statusWord, toNat_append_eq, BitVec.toNat_ofBool, zero]
  omega

/-- Settles O22: every field is a digit group of the STATUS word's value. -/
theorem statusWordHasTheStatedLayout : Obligations.StatusWordHasTheStatedLayout := by
  intro s w
  have value : w.toNat = _ := statusWord_toNat s
  have := s.busy.toNat_lt
  have := s.done.toNat_lt
  have := s.found.toNat_lt
  have := s.err.toNat_lt
  have := s.errSticky.toNat_lt
  have errCode : (w.extractLsb' 8 4).toNat = s.errCode.code.toNat := by rw [extractLsb'_toNat_eq_div_mod]; omega
  have outcome : (w.extractLsb' 12 2).toNat = s.outcome.code.toNat := by rw [extractLsb'_toNat_eq_div_mod]; omega
  have table : (w.extractLsb' 16 2).toNat = s.tableState.code.toNat := by rw [extractLsb'_toNat_eq_div_mod]; omega
  have reserved (lo len : Nat) (h : w.toNat / 2 ^ lo % 2 ^ len = 0) : w.extractLsb' lo len = 0 :=
    BitVec.eq_of_toNat_eq (by rw [extractLsb'_toNat_eq_div_mod, h]; rfl)
  refine ⟨getLsbD_eq_of_toNat (b := s.busy) ?busy, getLsbD_eq_of_toNat ?done, getLsbD_eq_of_toNat ?found,
    getLsbD_eq_of_toNat ?err, getLsbD_eq_of_toNat ?sticky, reserved 5 3 ?low, errCode.trans ?code,
    outcome.trans ?outcomeCode, reserved 14 2 ?mid, table.trans ?tableCode, reserved 18 6 ?high,
    BitVec.eq_of_toNat_eq ?lastOp⟩
  case code => cases s.errCode <;> rfl
  case outcomeCode => cases s.outcome <;> rfl
  case tableCode => cases s.tableState <;> rfl
  case lastOp => rw [extractLsb'_toNat_eq_div_mod]; omega
  all_goals omega

/-! ### Power-on and the reset input (10_state.md R60) -/

/-- Settles O17: memory is the only field in which power-on differs from `State.reset`. -/
theorem resetStateIsAsListed : Obligations.ResetStateIsAsListed := by
  intro m s
  have hstatus : s.statusWord = 0x00000000 := show State.reset.statusWord = 0 by decide
  have hacq : s.acqDepth = 4 := show State.reset.acqDepth = 4 by decide
  have hretry : s.retry = 3 := show State.reset.retry = 3 by decide
  have hahead : s.lookahead = 128 := show State.reset.lookahead = 128 by decide
  exact ⟨hstatus, rfl, rfl, rfl, rfl, rfl, rfl, rfl, rfl, rfl, rfl, hacq, hretry, hahead, rfl, rfl, rfl, rfl, rfl, rfl,
    rfl, rfl, rfl, rfl, rfl, rfl, rfl, rfl, rfl, rfl, rfl⟩

theorem inv_reset : State.reset.Inv where
  memCanonical := Memory.wf_nil
  memInside := by decide
  sizeLegal := by decide
  busyFlags := by decide
  busyLastOp := nofun
  errHasCode := by decide
  errSticks := by decide
  errPlain := by decide
  foundOk := by decide
  neverNoShrink := by decide
  sqrtResRange := by decide
  resultFits := by decide
  freshStatus := by decide

/-- R60's registers meet the invariant with any canonical memory of any legal size. -/
theorem inv_reset_with {m : Memory} {size : Nat} (hm : m.wf) (hin : Memory.Below size m)
    (hsize : WellFormed.symMemSize size = true) : State.Inv { State.reset with mem := m, symMemSize := size } :=
  { inv_reset with memCanonical := hm, memInside := hin, sizeLegal := hsize, resultFits := Nat.zero_le _ }

/-- Settles O19: power-on is `State.reset` with the given memory, of the default size. -/
theorem powerOnMeetsTheInvariant : Obligations.PowerOnMeetsTheInvariant :=
  fun _ hm hin => inv_reset_with hm hin (by decide)

/-! ### How many frames a resynchronization can confirm (40_sync_detector.md R156, R157) -/

/-- Tracking moves its cursor by 80 symbols per confirmed frame at least, and not past the buffer. -/
theorem track_bounds (snap : Nat → Byte) (n la : Nat) (sync : Byte) (fuel pos : Nat) :
    pos + 80 * (track snap n la sync fuel pos).1.length ≤ (track snap n la sync fuel pos).2 ∧
      (track snap n la sync fuel pos).2 ≤ max pos n := by
  induction fuel generalizing pos with
  | zero => simp [track]
  | succ fuel ih =>
    rw [track]
    split
    · rename_i hroom
      split
      · simp
      · rename_i k hk
        obtain ⟨-, hin, -⟩ := (confirm_some_iff snap n la sync pos k hroom).1 hk
        obtain ⟨hlo, hhi⟩ := ih (pos + k * 80 + 80)
        simp only [List.length_cons]
        omega
    · simp

/-- Coarse acquisition from `pos` on confirms at most one frame per 80 symbols left. -/
theorem coarse_length_le (snap : Nat → Byte) (n depth retry la fuel pos : Nat) :
    80 * (coarse snap n depth retry la fuel pos).length ≤ n - pos := by
  induction fuel generalizing pos with
  | zero => simp [coarse]
  | succ fuel ih =>
    rw [coarse]
    split
    · split
      · have := ih (pos + retry * 80)
        omega
      · rename_i o sync _
        obtain ⟨hlo, hhi⟩ := track_bounds snap n la sync (n + 1) (pos + o)
        have := ih (track snap n la sync (n + 1) (pos + o)).2
        simp only [List.length_append]
        omega
    · simp

theorem compacted_length (s : State) :
    s.compacted.length = 72 * (resyncFrames (s.sym s.src) s.n s.acqDepth s.retry s.lookahead).length :=
  flatMap_frameData_length _ _

/-- RESYNC_CORE never returns more than MAXOUT(n) symbols (40_sync_detector.md R159; 41_deinterleaver.md R184). -/
theorem compacted_length_le_maxOut (s : State) : s.compacted.length ≤ maxOut s.n := by
  have := coarse_length_le (s.sym s.src) s.n s.acqDepth s.retry s.lookahead (s.n + 1) 0
  rw [compacted_length, maxOut, resyncFrames]
  omega

theorem maxOut_le (n : Nat) : maxOut n ≤ n := by
  unfold maxOut
  omega

theorem compacted_length_le (s : State) : s.compacted.length ≤ s.n :=
  (compacted_length_le_maxOut s).trans (maxOut_le s.n)

/-- A nonzero result is strictly shorter than its input, which is why NO_SHRINK is unreachable (41_deinterleaver.md R186). -/
theorem compacted_length_lt {s : State} (h : s.compacted.length ≠ 0) : s.compacted.length < s.n := by
  have := compacted_length_le_maxOut s
  unfold maxOut at this
  omega

/-! ### Lengths and regions of the other storing commands -/

theorem diffBytes_length (sat : Bool) (pi pq : Byte) (raw : List Byte) :
    (diffBytes sat pi pq raw).length = 2 * (raw.length / 2) := by
  induction pi, pq, raw using diffBytes.induct with
  | case1 pi pq a b raw ih =>
    simp only [diffBytes, List.length_cons, ih]
    omega
  | case2 raw pi pq h =>
    rcases raw with _ | ⟨a, _ | ⟨b, raw⟩⟩
    · rfl
    · simp [diffBytes]
    · exact absurd rfl (h a b raw)

/-- DIFF_DECODE stores no more bytes than it reads. -/
theorem diffBytes_readBytes_length_le (sat : Bool) (pi pq : Byte) (m : Memory) (a n : Nat) :
    (diffBytes sat pi pq (m.readBytes a n)).length ≤ n := by
  rw [diffBytes_length, Memory.readBytes_length]
  omega

theorem regionValid_mono {size a m n : Nat} (h : RegionValid size a n) (hmn : m ≤ n) : RegionValid size a m := by
  unfold RegionValid at *
  omega

theorem length_le_of_regionValid {size a n : Nat} (h : RegionValid size a n) : n ≤ size := by
  unfold RegionValid at h
  omega

theorem writeBytes_below_of_regionValid {size a : Nat} {m : Memory} {bs : List Byte} (h : Memory.Below size m)
    (hr : RegionValid size a bs.length) : Memory.Below size (m.writeBytes a bs) := by
  rcases hr with hnil | hin
  · rw [List.length_eq_zero_iff.1 hnil]
    exact h
  · exact Memory.writeBytes_below h bs hin

/-- SQRT_LOOKUP's result lies in [−128, 128] (10_state.md R49). -/
theorem ssqrt_word_range {a : Int} (hlo : -16384 ≤ a) (hhi : a ≤ 16384) :
    -128 ≤ (BitVec.ofInt 32 (ssqrt a)).toInt ∧ (BitVec.ofInt 32 (ssqrt a)).toInt ≤ 128 := by
  have habs : (ssqrt a).natAbs ≤ 128 := by
    rw [natAbs_ssqrt]
    exact isqrt_le_128 (by omega)
  rw [BitVec.toInt_ofInt_eq_self (by omega) (by omega) (by omega)]
  omega

/-! ### The part of the invariant that speaks of memory and results -/

/-- The invariant's clauses about symbol memory, SQRT_RES and RESULT_LEN: what a command's own effect keeps, whatever its
flags. -/
structure State.DataInv (s : State) : Prop where
  memCanonical : s.mem.wf
  memInside : Memory.Below s.symMemSize s.mem
  sizeLegal : WellFormed.symMemSize s.symMemSize = true
  sqrtResRange : -128 ≤ s.sqrtRes.toInt ∧ s.sqrtRes.toInt ≤ 128
  resultFits : s.resultLen.toNat ≤ s.symMemSize

theorem State.Inv.data {s : State} (h : s.Inv) : s.DataInv := { h with }

/-- Bytes stored in a valid region. -/
theorem State.DataInv.store {s : State} (h : s.DataInv) {a : Nat} {bs : List Byte}
    (hr : RegionValid s.symMemSize a bs.length) : State.DataInv { s with mem := s.mem.writeBytes a bs } :=
  { h with
    memCanonical := Memory.writeBytes_wf h.memCanonical a bs
    memInside := writeBytes_below_of_regionValid h.memInside hr }

theorem State.DataInv.setResultLen {s : State} (h : s.DataInv) {len : Nat} (hlen : len ≤ s.symMemSize) :
    State.DataInv { s with resultLen := BitVec.ofNat 32 len } :=
  { h with resultFits := (BitVec.toNat_ofNat len 32 ▸ Nat.mod_le _ _).trans hlen }

/-- RESYNC_CORE writes at most n symbols at src and reports how many (40_sync_detector.md R156). -/
theorem State.DataInv.resynchronized {s : State} (h : s.DataInv) (hr : RegionValid s.symMemSize s.src s.n) :
    s.resynchronized.DataInv :=
  { (h.store (regionValid_mono hr (compacted_length_le s))).setResultLen
      ((compacted_length_le s).trans (length_le_of_regionValid hr)) with }

/-- `complete` meets the invariant when no error stands and FOUND = 1 only with the outcome OK. -/
theorem State.DataInv.complete {s : State} {o : CmdOutcome} (h : s.DataInv) (herr : s.err = false)
    (hcode : s.errCode = .noError) (hfound : s.found = true → o = .ok) (ho : o ≠ .noShrink) : (s.complete o).Inv :=
  { h with
    busyFlags := nofun
    busyLastOp := nofun
    errHasCode := by simp [herr, hcode]
    errSticks := by simp [herr]
    errPlain := by simp [herr]
    foundOk := hfound
    neverNoShrink := ho
    freshStatus := nofun }

/-! ### Every kind of step keeps the invariant -/

/-- The invariant says nothing of the host, of HOST_FAULT or of the count of draws. -/
theorem State.Inv.withHost {s : State} (h : s.Inv) (fault : Bool) (program : List HostOp) (schedule : List Agent)
    (received : List Word) (draws : Nat) :
    State.Inv { s with
      hostFault := fault, hostProgram := program, schedule := schedule, hostReceived := received, draws := draws } :=
  { h with }

theorem State.Inv.takeTurn {s : State} (h : s.Inv) : s.takeTurn.Inv := h.withHost ..

/-- `raise Error` on a pending command (60_exceptions.md R263, R267). -/
theorem State.Inv.raiseError {s : State} (h : s.Inv) (hbusy : s.busy = true) {c : ErrCode} (hc : c ≠ .noError) :
    (s.raiseError c).Inv := by
  obtain ⟨-, hfound, -, -⟩ := h.busyFlags hbusy
  exact
    { h with
      busyFlags := nofun
      busyLastOp := nofun
      errHasCode := by simp [hc]
      errSticks := fun _ => rfl
      errPlain := fun _ => ⟨hfound, rfl⟩
      foundOk := fun _ => rfl
      neverNoShrink := nofun
      freshStatus := nofun }

/-- A pending command that completes: its own effect keeps the data clauses, and its flags fit its outcome. -/
theorem Completes.inv {i : Instr} {s t : State} (h : s.Inv) (hbusy : s.busy = true) (hc : Completes i s t) : t.Inv := by
  have hd := h.data
  obtain ⟨-, hfound, herr, -⟩ := h.busyFlags hbusy
  have hcode : s.errCode = .noError := by
    by_contra hne
    simp [h.errHasCode.2 hne] at herr
  have hnotFound (o : CmdOutcome) : s.found = true → o = .ok := by simp [hfound]
  cases i with
  | nop =>
    subst hc
    exact hd.complete herr hcode (hnotFound _) nofun
  | sqrtInit =>
    obtain ⟨-, rfl⟩ := hc
    exact State.DataInv.complete { hd with } herr hcode (hnotFound _) nofun
  | sqrtRelease =>
    obtain ⟨-, rfl⟩ := hc
    exact State.DataInv.complete { hd with } herr hcode (hnotFound _) nofun
  | sqrtLookup =>
    obtain ⟨-, hlo, hhi, rfl⟩ := hc
    exact State.DataInv.complete { hd with sqrtResRange := ssqrt_word_range hlo hhi } herr hcode (hnotFound _) nofun
  | diffDecode =>
    obtain ⟨-, -, -, hr, rfl⟩ := hc
    have hlen := diffBytes_readBytes_length_le s.ctrlDiffSat s.diffPrevI s.diffPrevQ s.mem s.src s.n
    exact State.DataInv.complete { hd.store (regionValid_mono hr hlen) with } herr hcode (hnotFound _) nofun
  | syncLocate =>
    obtain ⟨-, ⟨o, b, -, rfl⟩ | ⟨-, rfl⟩⟩ := hc
    · exact State.DataInv.complete { hd with } herr hcode (fun _ => rfl) nofun
    · exact State.DataInv.complete { hd with } herr hcode nofun nofun
  | resync =>
    obtain ⟨⟨-, hr⟩, rfl⟩ := hc
    refine (hd.resynchronized hr).complete herr hcode (fun hpos => if_neg ?_) (by split <;> nofun)
    exact Nat.ne_of_gt (of_decide_eq_true hpos)
  | deinterleave =>
    obtain ⟨-, hr, -, rfl⟩ := hc
    have hstore := (hd.store (bs := deinterleaved (s.sym s.src) s.n) (by simpa using hr)).setResultLen
      (length_le_of_regionValid hr)
    exact State.DataInv.complete { hstore with } herr hcode nofun nofun
  | resyncDeinterleave =>
    obtain ⟨⟨-, hsrc⟩, hdst, -, ⟨hz, rfl⟩ | ⟨hnz, hge, -⟩ | ⟨-, -, rfl⟩⟩ := hc
    · refine (hd.resynchronized hsrc).complete herr hcode (fun hpos => ?_) nofun
      exact absurd hz (Nat.ne_of_gt (of_decide_eq_true hpos))
    · exact absurd hge (Nat.not_le.2 (compacted_length_lt hnz))
    · have hr := regionValid_mono hdst (compacted_length_le_maxOut s)
      exact ((hd.resynchronized hsrc).store ((deinterleaved_length _ _).symm ▸ hr)).complete herr hcode (fun _ => rfl) nofun

theorem engineStep_inv {s t : State} (h : s.Inv) {w : Word} (hw : s.pending = some w) (ht : engineStep s = .next t) :
    t.Inv := by
  have hbusy := busy_of_pending hw
  obtain ⟨t', ht', ⟨c, hc, rfl⟩ | ⟨i, -, hc⟩⟩ := engineStep_cases s w hw <;> cases ht.symm.trans ht'
  · exact h.raiseError hbusy hc
  · exact hc.inv h hbusy

/-- A register write: a launch clears the flags (10_state.md R35), and no other register is one of the invariant's. -/
theorem State.Inv.writeReg {s : State} (h : s.Inv) (v : Word) (r : Reg) : (s.writeReg v r).Inv := by
  cases r with
  | cmd =>
    exact
      { h with
        busyFlags := fun _ => ⟨rfl, rfl, rfl, rfl⟩
        busyLastOp := by rintro w ⟨⟩; rfl
        errHasCode := by simp [State.writeReg, State.launch]
        errSticks := nofun
        errPlain := nofun
        foundOk := nofun
        neverNoShrink := nofun
        freshStatus := nofun }
  | status | syncOffset | syncByte | resultLen | sqrtRes => exact h
  | ctrl | srcBase | srcLen | dstBase | locStride | locDepth | locWindow | resyncCfg | diffPrev | sqrtArg =>
    exact { h with }

/-- The reset input: R60's registers, and a memory that scrambling leaves canonical and inside its size
(70_reset_and_hazards.md R290). -/
theorem State.Inv.resetInput {s : State} (h : s.Inv) : s.resetInput.Inv :=
  (inv_reset_with (Memory.scrambleRegions_wf h.memCanonical s.draws s.symMemSize s.abandonedRegions)
    (Memory.scrambleRegions_below h.memInside s.draws s.abandonedRegions) h.sizeLegal).withHost ..

theorem hostStep_inv {s : State} (h : s.Inv) {op : HostOp} {rest : List HostOp} (hp : s.hostProgram = op :: rest) :
    s.hostStep.Inv := by
  have hu : State.Inv { s with hostProgram := rest } := h.withHost ..
  rcases hostStep_cases s op rest hp with e | ⟨v, e⟩ | ⟨v, e⟩ | ⟨-, r, v, e⟩ | ⟨-, e⟩ | ⟨a, bs, -, hlen, e⟩ | e <;>
    rw [e]
  · exact hu.withHost ..
  · exact hu.withHost ..
  · exact h.withHost ..
  · exact hu.writeReg v r
  · exact hu
  · exact { hu with
      memCanonical := Memory.writeBytes_wf h.memCanonical a bs
      memInside := Memory.writeBytes_below h.memInside bs hlen }
  · exact hu.resetInput

/-- Settles O20, by what a step can do: stay, one host transaction, or the engine's step. -/
theorem stepKeepsTheInvariant : Obligations.StepKeepsTheInvariant := by
  intro s t h hstep
  obtain ⟨-, ⟨-, rfl⟩ | ⟨hm, rfl⟩ | ⟨hm, ht⟩⟩ := step_cases hstep
  · exact h
  · obtain ⟨op, rest, hp⟩ := program_of_mover_host hm
    exact hostStep_inv h.takeTurn hp
  · obtain ⟨w, hw⟩ := pending_of_mover_engine hm
    exact engineStep_inv h.takeTurn hw ht

/-! ### ERR_STICKY (10_state.md R34) -/

theorem Completes.errSticky {i : Instr} {s t : State} (hc : Completes i s t) : t.errSticky = s.errSticky := by
  cases i with
  | nop => exact hc ▸ rfl
  | sqrtInit | sqrtRelease =>
    obtain ⟨-, rfl⟩ := hc
    rfl
  | sqrtLookup =>
    obtain ⟨-, -, -, rfl⟩ := hc
    rfl
  | diffDecode =>
    obtain ⟨-, -, -, -, rfl⟩ := hc
    rfl
  | syncLocate =>
    obtain ⟨-, ⟨_, _, -, rfl⟩ | ⟨-, rfl⟩⟩ := hc <;> rfl
  | resync =>
    obtain ⟨-, rfl⟩ := hc
    rfl
  | deinterleave =>
    obtain ⟨-, -, -, rfl⟩ := hc
    rfl
  | resyncDeinterleave =>
    obtain ⟨-, -, -, ⟨-, rfl⟩ | ⟨-, -, rfl⟩ | ⟨-, -, rfl⟩⟩ := hc <;> rfl

/-- The engine's step never clears ERR_STICKY. -/
theorem engineStep_errSticky {s t : State} {w : Word} (hw : s.pending = some w) (ht : engineStep s = .next t)
    (h : s.errSticky = true) : t.errSticky = true := by
  obtain ⟨t', ht', ⟨c, -, rfl⟩ | ⟨i, -, hc⟩⟩ := engineStep_cases s w hw <;> cases ht.symm.trans ht'
  · rfl
  · rw [hc.errSticky, h]

theorem writeOffset_errSticky (s : State) (off : BitVec 8) (v : Word) : (s.writeOffset off v).errSticky = s.errSticky := by
  unfold State.writeOffset
  split
  · rename_i r _
    cases r <;> rfl
  · rfl

/-- Every host transaction but the reset input keeps ERR_STICKY. -/
theorem hostStep_errSticky {s : State} {op : HostOp} {rest : List HostOp} (hp : s.hostProgram = op :: rest)
    (hop : op ≠ .reset) : s.hostStep.errSticky = s.errSticky := by
  rw [State.hostStep, hp]
  cases op with
  | regRead off w =>
    simp only [State.hostRegRead]
    split
    · rfl
    split <;> rfl
  | regWrite off w v =>
    simp only [State.hostRegWrite]
    split
    · rfl
    split
    · rfl
    · exact writeOffset_errSticky _ off v
  | symRead a w =>
    simp only [State.hostSymRead]
    split <;> rfl
  | symWrite a w v =>
    simp only [State.hostSymWrite]
    split <;> rfl
  | poll =>
    simp only [State.hostPoll]
    split <;> rfl
  | reset => exact absurd rfl hop

/-- Settles O23: the engine only sets ERR_STICKY, and of the host's transactions only the reset entry writes it. -/
theorem errStickyStaysUntilReset : Obligations.ErrStickyStaysUntilReset := by
  intro s t hstep hset hclear
  obtain ⟨-, ⟨-, rfl⟩ | ⟨hm, rfl⟩ | ⟨hm, ht⟩⟩ := step_cases hstep
  · simp [hset] at hclear
  · obtain ⟨op, rest, hp⟩ := program_of_mover_host hm
    refine ⟨hm, rest, ?_⟩
    by_contra hne
    have hkeep := hostStep_errSticky (s := s.takeTurn) hp (by rintro rfl; exact hne hp)
    simp [hkeep, hset] at hclear
  · obtain ⟨w, hw⟩ := pending_of_mover_engine hm
    simp [engineStep_errSticky (s := s.takeTurn) hw ht hset] at hclear

end Sys2Proof.Machine

namespace Sys2Proof.Machine

/-! ### The canonical form of symbol memory (20_memory.md R80; log 2) -/

/-- A listed address reads as its entry says. -/
theorem Memory.read_of_mem {m : Memory} (h : m.wf) {c : Host.Cell} (hc : c ∈ m) : m.read c.1 = c.2 := by
  induction m with
  | nil => exact absurd hc List.not_mem_nil
  | cons d m ih =>
    rcases List.mem_cons.1 hc with rfl | hc
    · exact if_pos rfl
    · rw [Memory.read, if_neg (Nat.ne_of_gt (Memory.wf_head_lt h c hc))]
      exact ih (Memory.wf_tail h) hc

/-- An address that does not read as unlisted is listed with what it reads as. -/
theorem Memory.mem_of_read_ne {m : Memory} {a : Nat} (h : m.read a ≠ Memory.unlisted) : (a, m.read a) ∈ m := by
  induction m with
  | nil => exact absurd rfl h
  | cons c m ih =>
    rw [Memory.read] at h ⊢
    split at h
    · rename_i ha
      rw [if_pos ha, ha]
      exact List.mem_cons_self
    · rename_i ha
      rw [if_neg ha]
      exact List.mem_cons_of_mem c (ih h)

/-- A canonical memory lists exactly the bytes that differ from what an unlisted address reads as. -/
theorem Memory.mem_iff_read {m : Memory} (h : m.wf) (c : Host.Cell) :
    c ∈ m ↔ m.read c.1 = c.2 ∧ c.2 ≠ Memory.unlisted := by
  constructor
  · exact fun hc => ⟨Memory.read_of_mem h hc, h.2 c hc⟩
  · rintro ⟨hread, hne⟩
    have hc := Memory.mem_of_read_ne (m := m) (a := c.1) (hread ▸ hne)
    rwa [hread] at hc

theorem Memory.nodup_of_wf {m : Memory} (h : m.wf) : m.Nodup :=
  h.1.imp fun {c d} (hlt : c.1 < d.1) (heq : c = d) => Nat.ne_of_lt hlt (congrArg Prod.fst heq)

/-- Settles O21: two lists in the same strict order with the same entries are one list. -/
theorem memoriesThatReadAlikeAreEqual : Obligations.MemoriesThatReadAlikeAreEqual := by
  intro m k hm hk hread
  have hsame (c : Host.Cell) : c ∈ m ↔ c ∈ k := by rw [Memory.mem_iff_read hm, Memory.mem_iff_read hk, hread]
  have hperm : m.Perm k := (List.perm_ext_iff_of_nodup (Memory.nodup_of_wf hm) (Memory.nodup_of_wf hk)).2 hsame
  exact hperm.eq_of_pairwise (fun _ _ _ _ hlt hgt => absurd hlt (Nat.lt_asymm hgt)) hm.1 hk.1

/-! ### The engine writes inside SYM_MEM_SIZE only (20_memory.md R87) -/

/-- Bytes stored in a valid region change no address outside the symbol memory. -/
theorem read_writeBytes_of_regionValid {size a b : Nat} (m : Memory) {bs : List Byte} (h : RegionValid size a bs.length)
    (hb : size ≤ b) : (m.writeBytes a bs).read b = m.read b := by
  rcases h with hnil | hin
  · rw [List.length_eq_zero_iff.1 hnil, Memory.writeBytes]
  · exact Memory.read_writeBytes_outside m bs (.inr (hin.trans hb))

theorem read_resynchronized_of_regionValid {s : State} (h : RegionValid s.symMemSize s.src s.n) {b : Nat}
    (hb : s.symMemSize ≤ b) : s.resynchronized.mem.read b = s.mem.read b :=
  read_writeBytes_of_regionValid s.mem (regionValid_mono h (compacted_length_le s)) hb

/-- A command that completes has checked every region it stores in. -/
theorem Completes.read_outside {i : Instr} {s t : State} (hc : Completes i s t) {b : Nat} (hb : s.symMemSize ≤ b) :
    t.mem.read b = s.mem.read b := by
  cases i with
  | nop => exact hc ▸ rfl
  | sqrtInit | sqrtRelease =>
    obtain ⟨-, rfl⟩ := hc
    rfl
  | sqrtLookup =>
    obtain ⟨-, -, -, rfl⟩ := hc
    rfl
  | diffDecode =>
    obtain ⟨-, -, -, hr, rfl⟩ := hc
    exact read_writeBytes_of_regionValid s.mem (regionValid_mono hr (diffBytes_readBytes_length_le ..)) hb
  | syncLocate =>
    obtain ⟨-, ⟨_, _, -, rfl⟩ | ⟨-, rfl⟩⟩ := hc <;> rfl
  | resync =>
    obtain ⟨⟨-, hr⟩, rfl⟩ := hc
    exact read_resynchronized_of_regionValid hr hb
  | deinterleave =>
    obtain ⟨-, hr, -, rfl⟩ := hc
    exact read_writeBytes_of_regionValid s.mem ((deinterleaved_length ..).symm ▸ hr) hb
  | resyncDeinterleave =>
    obtain ⟨⟨-, hsrc⟩, hdst, -, ⟨-, rfl⟩ | ⟨-, -, rfl⟩ | ⟨-, -, rfl⟩⟩ := hc
    · exact read_resynchronized_of_regionValid hsrc hb
    · exact read_resynchronized_of_regionValid hsrc hb
    · have hr := regionValid_mono hdst (compacted_length_le_maxOut s)
      exact (read_writeBytes_of_regionValid _ ((deinterleaved_length ..).symm ▸ hr) hb).trans
        (read_resynchronized_of_regionValid hsrc hb)

/-- Settles O27: an error keeps symbol memory, and a command that completes stores in valid regions only. -/
theorem engineWritesOnlySymbolMemory : Obligations.EngineWritesOnlySymbolMemory := by
  intro i s t ht a ha
  obtain ⟨t', ht', ⟨c, -, rfl⟩ | hc⟩ := exec_cases i s <;> cases ht.symm.trans ht'
  · rfl
  · exact hc.read_outside ha

/-! ### The searches read only the symbols of their sequence (40_sync_detector.md R142, R154) -/

theorem hardByte_congr {X Y : Nat → Byte} {p : Nat} (h : ∀ j, j < 8 → X (p + j) = Y (p + j)) :
    hardByte X p = hardByte Y p :=
  (hardByte_eq_iff X Y p p).2 fun j hj => by rw [h j hj]

section SearchCongr

variable {X Y : Nat → Byte} {len : Nat} (h : ∀ i, i < len → X i = Y i)

include h

theorem hardByte_congr_of_le {p : Nat} (hp : p + 8 ≤ len) : hardByte X p = hardByte Y p :=
  hardByte_congr fun _ hj => h _ (by omega)

/-- Every confirmation of an offset that can qualify lies inside the sequence. -/
theorem qualifies_congr (stride depth o : Nat) : qualifies X len stride depth o = qualifies Y len stride depth o := by
  rw [Bool.eq_iff_iff, qualifies_iff, qualifies_iff]
  refine and_congr_right fun hin => forall₃_congr fun k _ hk => ?_
  have hmul : k * stride ≤ stride * depth := Nat.mul_comm stride depth ▸ Nat.mul_le_mul_right stride hk
  rw [hardByte_congr_of_le h (p := o + k * stride) (by omega), hardByte_congr_of_le h (p := o) (by omega)]

theorem locate_congr (stride depth window : Nat) :
    locate X len stride depth window = locate Y len stride depth window := by
  refine Option.ext fun ⟨o, b⟩ => ?_
  simp only [locate_some_iff, qualifies_congr h]
  refine and_congr_right fun _ => and_congr_right fun hq => ?_
  obtain ⟨hin, -⟩ := (qualifies_iff Y len stride depth o).1 hq
  rw [hardByte_congr_of_le h (p := o) (by omega)]

theorem confirm_congr (la : Nat) (sync : Byte) {pos : Nat} (hpos : pos + 80 ≤ len) :
    confirm X len la sync pos = confirm Y len la sync pos := by
  refine Option.ext fun k => ?_
  rw [confirm_some_iff X len la sync pos k hpos, confirm_some_iff Y len la sync pos k hpos]
  refine and_congr_right fun _ => and_congr_right fun hin => ?_
  have hbyte (q : Nat) (hq : q ≤ k) : hardByte X (pos + q * 80) = hardByte Y (pos + q * 80) :=
    hardByte_congr_of_le h (by omega)
  rw [hbyte k le_rfl]
  exact and_congr_right fun _ => forall₂_congr fun q hq => by rw [hbyte q hq.le]

theorem track_congr (la : Nat) (sync : Byte) (fuel pos : Nat) :
    track X len la sync fuel pos = track Y len la sync fuel pos := by
  induction fuel generalizing pos with
  | zero => rfl
  | succ fuel ih =>
    rw [track, track]
    split
    · rename_i hroom
      simp only [confirm_congr h la sync hroom, ih]
    · rfl

theorem coarse_congr (depth retry la fuel pos : Nat) :
    coarse X len depth retry la fuel pos = coarse Y len depth retry la fuel pos := by
  induction fuel generalizing pos with
  | zero => rfl
  | succ fuel ih =>
    have hlocate := locate_congr (X := fun i => X (pos + i)) (Y := fun i => Y (pos + i)) (len := len - pos)
      (fun i hi => h (pos + i) (by omega)) 80 depth ((depth + 1) * 80)
    simp only [coarse, hlocate, track_congr h, ih]

theorem frameData_congr {p : Nat} (hp : p + 80 ≤ len) : frameData X p = frameData Y p :=
  List.map_congr_left fun j hj => h _ (by have := List.mem_range.1 hj; omega)

/-- The de-interleaver reads no source index at or above its length (41_deinterleaver.md R180). -/
theorem deinterleaved_congr : deinterleaved X len = deinterleaved Y len := by
  refine List.map_congr_left fun i _ => ?_
  unfold deinterleavedAt
  split
  · exact h _ ‹_›
  · rfl

end SearchCongr

/-- A tracked frame lies whole in the buffer (40_sync_detector.md R154). -/
theorem mem_track_le {snap : Nat → Byte} {n la : Nat} {sync : Byte} {fuel pos p : Nat}
    (hp : p ∈ (track snap n la sync fuel pos).1) : p + 80 ≤ n := by
  induction fuel generalizing pos with
  | zero => simp [track] at hp
  | succ fuel ih =>
    rw [track] at hp
    split at hp
    · rename_i hroom
      split at hp
      · exact absurd hp List.not_mem_nil
      · rename_i k hk
        obtain ⟨-, hin, -⟩ := (confirm_some_iff snap n la sync pos k hroom).1 hk
        rcases List.mem_cons.1 hp with rfl | hp
        · exact hin
        · exact ih hp
    · exact absurd hp List.not_mem_nil

/-- A confirmed frame lies whole in the buffer (40_sync_detector.md R156). -/
theorem mem_coarse_le {snap : Nat → Byte} {n depth retry la fuel pos p : Nat}
    (hp : p ∈ coarse snap n depth retry la fuel pos) : p + 80 ≤ n := by
  induction fuel generalizing pos with
  | zero => simp [coarse] at hp
  | succ fuel ih =>
    rw [coarse] at hp
    split at hp
    · split at hp
      · exact ih hp
      · rcases List.mem_append.1 hp with hp | hp
        · exact mem_track_le hp
        · exact ih hp
    · exact absurd hp List.not_mem_nil

/-! ### The three ways SYNC_LOCATE ends (40_sync_detector.md R147) -/

theorem execSyncLocate_of_invalid {s : State} (hr : ¬ RegionValid s.symMemSize s.src s.locateSpan) :
    execSyncLocate s = raise .range s := if_pos hr

theorem execSyncLocate_of_found {s : State} {r : Nat × Byte} (hr : RegionValid s.symMemSize s.src s.locateSpan)
    (hl : locate (s.sym s.src) s.locateSpan s.stride s.depth s.window = some r) :
    execSyncLocate s =
      completeWith .ok { s with syncOffset := BitVec.ofNat 32 r.1, syncByte := r.2, found := true } := by
  rw [execSyncLocate, if_neg (not_not.2 hr), hl]

theorem execSyncLocate_of_none {s : State} (hr : RegionValid s.symMemSize s.src s.locateSpan)
    (hl : locate (s.sym s.src) s.locateSpan s.stride s.depth s.window = none) :
    execSyncLocate s = completeWith .noSync { s with syncOffset := 0, syncByte := 0, found := false } := by
  rw [execSyncLocate, if_neg (not_not.2 hr), hl]

/-! ### Memories that are alike below SYM_MEM_SIZE (20_memory.md R87) -/

/-- Two canonical memories that differ at most in bytes outside the symbol memory's `size` addresses. -/
structure Memory.AlikeBelow (size : Nat) (m k : Memory) : Prop where
  left : m.wf
  right : k.wf
  read : ∀ a, a < size → m.read a = k.read a

namespace Memory.AlikeBelow

variable {size : Nat} {m k : Memory} (h : Memory.AlikeBelow size m k)

include h

theorem write (a : Nat) (v : Byte) : Memory.AlikeBelow size (m.write a v) (k.write a v) where
  left := Memory.write_wf h.left a v
  right := Memory.write_wf h.right a v
  read b hb := by rw [Memory.read_write h.left, Memory.read_write h.right, h.read b hb]

theorem writeBytes (a : Nat) (bs : List Byte) : Memory.AlikeBelow size (m.writeBytes a bs) (k.writeBytes a bs) := by
  induction bs generalizing m k a with
  | nil => exact h
  | cons b bs ih => exact ih (h.write a b) (a + 1)

/-- The symbols of a valid region are the same. -/
theorem read_region {a n : Nat} (hr : RegionValid size a n) (i : Nat) (hi : i < n) : m.read (a + i) = k.read (a + i) :=
  h.read _ (by unfold RegionValid at hr; omega)

end Memory.AlikeBelow

/-! ### Commands on memories that are alike below SYM_MEM_SIZE -/

/-- Two outcomes are next states that differ only in memory, and there at most in bytes at or above `size`. -/
def OutcomesAlike (size : Nat) (x y : Host.Outcome State Fault Refusal) : Prop :=
  ∃ (t : State) (m : Memory), x = .next t ∧ y = .next { t with mem := m } ∧ Memory.AlikeBelow size m t.mem

/-- Both outcomes make the same check. -/
theorem OutcomesAlike.ite {size : Nat} {c : Prop} [Decidable c] {x x' y y' : Host.Outcome State Fault Refusal}
    (hpos : c → OutcomesAlike size x y) (hneg : ¬ c → OutcomesAlike size x' y') :
    OutcomesAlike size (if c then x else x') (if c then y else y') := by
  split
  · exact hpos ‹_›
  · exact hneg ‹_›

section AlikeCommands

variable {s : State} {m : Memory} (h : Memory.AlikeBelow s.symMemSize m s.mem)

include h

theorem raise_alike (c : ErrCode) : OutcomesAlike s.symMemSize (raise c s) (raise c { s with mem := m }) :=
  ⟨_, m, rfl, rfl, h⟩

theorem completeWith_alike (o : CmdOutcome) :
    OutcomesAlike s.symMemSize (completeWith o s) (completeWith o { s with mem := m }) :=
  ⟨_, m, rfl, rfl, h⟩

/-- RESYNC_CORE reads the region (src, n) only. -/
theorem compacted_of_alike (hr : RegionValid s.symMemSize s.src s.n) :
    State.compacted { s with mem := m } = s.compacted := by
  have hsym := h.read_region hr
  have hframes : resyncFrames (State.sym { s with mem := m } s.src) s.n s.acqDepth s.retry s.lookahead =
      resyncFrames (s.sym s.src) s.n s.acqDepth s.retry s.lookahead := coarse_congr hsym ..
  refine (congrArg (List.flatMap _) hframes).trans (List.flatMap_congr fun p hp => ?_)
  exact frameData_congr hsym (mem_coarse_le hp)

theorem resynchronized_of_alike (hr : RegionValid s.symMemSize s.src s.n) :
    State.resynchronized { s with mem := m } =
      { s.resynchronized with mem := m.writeBytes s.src s.compacted } := by
  rw [State.resynchronized, compacted_of_alike h hr]
  rfl

theorem execSqrtInit_alike : OutcomesAlike s.symMemSize (execSqrtInit s) (execSqrtInit { s with mem := m }) :=
  .ite (fun _ => raise_alike h _) fun _ => completeWith_alike (s := { s with tableState := .ready }) h _

theorem execSqrtRelease_alike :
    OutcomesAlike s.symMemSize (execSqrtRelease s) (execSqrtRelease { s with mem := m }) :=
  .ite (fun _ => raise_alike h _) fun _ => completeWith_alike (s := { s with tableState := .released }) h _

theorem execSqrtLookup_alike : OutcomesAlike s.symMemSize (execSqrtLookup s) (execSqrtLookup { s with mem := m }) :=
  .ite (fun _ => raise_alike h _) fun _ => .ite (fun _ => raise_alike h _) fun _ =>
    completeWith_alike (s := { s with sqrtRes := BitVec.ofInt 32 (ssqrt s.sqrtOperand) }) h _

/-- DIFF_DECODE reads its raw bytes from the region (src, n) (43_differential.md R220). -/
theorem execDiffDecode_alike : OutcomesAlike s.symMemSize (execDiffDecode s) (execDiffDecode { s with mem := m }) := by
  refine .ite (fun _ => raise_alike h _) fun _ => .ite (fun _ => raise_alike h _) fun _ =>
    .ite (fun _ => raise_alike h _) fun hr => ?_
  have hraw : m.readBytes s.src s.n = s.mem.readBytes s.src s.n :=
    Memory.readBytes_congr (h.read_region (not_not.1 hr))
  refine ⟨_, _, rfl, ?_, h.writeBytes s.src
    (diffBytes s.ctrlDiffSat s.diffPrevI s.diffPrevQ (s.mem.readBytes s.src s.n))⟩
  rw [← hraw]
  rfl

/-- SYNC_LOCATE reads its span of symbols from src (40_sync_detector.md R147). -/
theorem execSyncLocate_alike : OutcomesAlike s.symMemSize (execSyncLocate s) (execSyncLocate { s with mem := m }) := by
  by_cases hr : RegionValid s.symMemSize s.src s.locateSpan
  · have hlocate : locate (State.sym { s with mem := m } s.src) s.locateSpan s.stride s.depth s.window =
        locate (s.sym s.src) s.locateSpan s.stride s.depth s.window := locate_congr (h.read_region hr) ..
    cases hl : locate (s.sym s.src) s.locateSpan s.stride s.depth s.window with
    | none =>
      rw [execSyncLocate_of_none hr hl, execSyncLocate_of_none (s := { s with mem := m }) hr (hlocate.trans hl)]
      exact completeWith_alike (s := { s with syncOffset := 0, syncByte := 0, found := false }) h _
    | some r =>
      rw [execSyncLocate_of_found hr hl, execSyncLocate_of_found (s := { s with mem := m }) hr (hlocate.trans hl)]
      exact completeWith_alike
        (s := { s with syncOffset := BitVec.ofNat 32 r.1, syncByte := r.2, found := true }) h _
  · rw [execSyncLocate_of_invalid hr, execSyncLocate_of_invalid (s := { s with mem := m }) hr]
    exact raise_alike h _

theorem execResync_alike : OutcomesAlike s.symMemSize (execResync s) (execResync { s with mem := m }) := by
  refine .ite (fun _ => raise_alike h _) fun _ => .ite (fun _ => raise_alike h _) fun hr => ?_
  rw [resynchronized_of_alike h (not_not.1 hr), compacted_of_alike h (not_not.1 hr)]
  exact completeWith_alike (s := s.resynchronized) (h.writeBytes s.src s.compacted) _

/-- DEINTERLEAVE reads the region (src, n) (41_deinterleaver.md R181). -/
theorem execDeinterleave_alike :
    OutcomesAlike s.symMemSize (execDeinterleave s) (execDeinterleave { s with mem := m }) := by
  refine .ite (fun _ => raise_alike h _) fun hr => .ite (fun _ => raise_alike h _) fun _ =>
    .ite (fun _ => raise_alike h _) fun _ => ?_
  have hdata : deinterleaved (State.sym { s with mem := m } s.src) s.n = deinterleaved (s.sym s.src) s.n :=
    deinterleaved_congr (h.read_region (not_not.1 hr))
  refine ⟨_, _, rfl, ?_, h.writeBytes s.dst (deinterleaved (s.sym s.src) s.n)⟩
  rw [← hdata]
  rfl

/-- After RESYNC_CORE, RESYNC_DEINTERLEAVE reads the rp compacted symbols at src (41_deinterleaver.md R185). -/
theorem execResyncDeinterleave_alike :
    OutcomesAlike s.symMemSize (execResyncDeinterleave s) (execResyncDeinterleave { s with mem := m }) := by
  refine .ite (fun _ => raise_alike h _) fun _ => .ite (fun _ => raise_alike h _) fun hr =>
    .ite (fun _ => raise_alike h _) fun _ => .ite (fun _ => raise_alike h _) fun _ => ?_
  have hsrc := not_not.1 hr
  have hcore := h.writeBytes s.src s.compacted
  simp only [resynchronized_of_alike h hsrc, compacted_of_alike h hsrc]
  refine .ite (fun _ => completeWith_alike (s := s.resynchronized) hcore _) fun _ =>
    .ite (fun _ => completeWith_alike (s := s.resynchronized) hcore _) fun _ => ?_
  have hdata : deinterleaved
      (State.sym { s.resynchronized with mem := m.writeBytes s.src s.compacted } s.src) s.compacted.length =
      deinterleaved (s.resynchronized.sym s.src) s.compacted.length :=
    deinterleaved_congr (hcore.read_region (regionValid_mono hsrc (compacted_length_le s)))
  refine ⟨_, _, rfl, ?_, hcore.writeBytes s.dst (deinterleaved (s.resynchronized.sym s.src) s.compacted.length)⟩
  rw [← hdata]
  rfl

/-- What a command answers depends on the bytes below SYM_MEM_SIZE only. -/
theorem exec_alike (i : Instr) : OutcomesAlike s.symMemSize (exec i s) (exec i { s with mem := m }) := by
  cases i with
  | nop => exact completeWith_alike h _
  | sqrtInit => exact execSqrtInit_alike h
  | sqrtRelease => exact execSqrtRelease_alike h
  | sqrtLookup => exact execSqrtLookup_alike h
  | diffDecode => exact execDiffDecode_alike h
  | syncLocate => exact execSyncLocate_alike h
  | resync => exact execResync_alike h
  | deinterleave => exact execDeinterleave_alike h
  | resyncDeinterleave => exact execResyncDeinterleave_alike h

end AlikeCommands

/-- Settles O28: on memories that are alike below SYM_MEM_SIZE a command makes the same checks, reads the same symbols and
stores the same bytes. -/
theorem engineReadsOnlySymbolMemory : Obligations.EngineReadsOnlySymbolMemory := by
  intro i s m hs hm hread
  obtain ⟨t, k, ht, hu, halike⟩ := exec_alike ⟨hm, hs, hread⟩ i
  exact ⟨t, { t with mem := k }, ht, hu, rfl, halike.read⟩

end Sys2Proof.Machine

namespace Sys2Proof

/-! ### The decoder (30_encoding.md R110, R111, R113) -/

theorem reservedField_eq_zero_iff (w : Word) : reservedField w = 0 ↔ w.toNat / 256 = 0 := by
  have hval : (reservedField w).toNat = w.toNat / 2 ^ 8 % 2 ^ 24 := Machine.extractLsb'_toNat_eq_div_mod w 8 24
  have hlt := w.isLt
  rw [BitVec.toNat_eq, hval, show (0 : BitVec 24).toNat = 0 from BitVec.toNat_zero]
  omega

theorem opcodeField_toNat (w : Word) : (opcodeField w).toNat = w.toNat % 256 := by
  rw [opcodeField, Machine.extractLsb'_toNat_eq_div_mod]
  omega

/-- RSVD and OPCODE make up the whole command word (R110). -/
theorem word_eq_of_fields {v w : Word} (hr : reservedField v = reservedField w) (ho : opcodeField v = opcodeField w) :
    v = w := by
  have append (x : Word) : reservedField x ++ opcodeField x = x := by
    refine BitVec.eq_of_toNat_eq ?_
    rw [Machine.toNat_append_eq, opcodeField_toNat, reservedField, Machine.extractLsb'_toNat_eq_div_mod]
    omega
  rw [← append v, ← append w, hr, ho]

/-- The opcode map read in both directions is one map (R111). -/
theorem decodeOpcode_eq_some_iff (op : Byte) (i : Instr) : decodeOpcode op = some i ↔ op = i.opcode := by
  constructor
  · intro h
    unfold decodeOpcode at h
    split at h <;> cases h <;> exact BitVec.eq_of_toNat_eq ‹_›
  · rintro rfl
    cases i <;> rfl

/-- A word selects a command exactly when RSVD is zero and OPCODE is that command's (R111). -/
theorem decode_eq_command_iff (w : Word) (i : Instr) :
    decode w = .command i ↔ reservedField w = 0 ∧ opcodeField w = i.opcode := by
  rw [← decodeOpcode_eq_some_iff]
  unfold decode
  by_cases hr : reservedField w = 0
  · rw [if_neg (not_not.2 hr), and_iff_right hr]
    cases decodeOpcode (opcodeField w) <;> simp
  · rw [if_pos hr]
    exact ⟨nofun, fun h => absurd h.1 hr⟩

/-- The two fields as numbers. -/
theorem decode_eq_command_iff_toNat (w : Word) (i : Instr) :
    decode w = .command i ↔ w.toNat / 256 = 0 ∧ w.toNat % 256 = i.opcode.toNat := by
  rw [decode_eq_command_iff, reservedField_eq_zero_iff, BitVec.toNat_eq, opcodeField_toNat]

theorem encodedWord (i : Instr) : Laws.EncodedWord.Statement i := by
  cases i with
  | nop => exact Laws.EncodedWord.nop
  | sqrtInit => exact Laws.EncodedWord.sqrtInit
  | sqrtRelease => exact Laws.EncodedWord.sqrtRelease
  | sqrtLookup => exact Laws.EncodedWord.sqrtLookup
  | diffDecode => exact Laws.EncodedWord.diffDecode
  | syncLocate => exact Laws.EncodedWord.syncLocate
  | resync => exact Laws.EncodedWord.resync
  | deinterleave => exact Laws.EncodedWord.deinterleave
  | resyncDeinterleave => exact Laws.EncodedWord.resyncDeinterleave

theorem decode_encode (i : Instr) : decode (encode i) = .command i := by
  obtain ⟨-, -, -, hdecode, -⟩ := encodedWord i
  exact hdecode

/-- Settles O3: a word that decodes to a command agrees with the command's encoding in both fields. -/
theorem encodedWordIsTheOnlyOneDecoded : Obligations.EncodedWordIsTheOnlyOneDecoded := by
  intro i w
  constructor
  · intro h
    obtain ⟨hr, ho⟩ := (decode_eq_command_iff w i).1 h
    obtain ⟨hri, hoi⟩ := (decode_eq_command_iff (encode i) i).1 (decode_encode i)
    exact word_eq_of_fields (hr.trans hri.symm) (ho.trans hoi.symm)
  · rintro rfl
    exact decode_encode i

/-- R111's table, each opcode with its mnemonic. -/
def opcodeTable : List (Nat × Instr) :=
  [(0x00, .nop), (0x01, .sqrtInit), (0x02, .sqrtRelease), (0x03, .sqrtLookup), (0x08, .diffDecode), (0x10, .syncLocate),
    (0x11, .resync), (0x18, .deinterleave), (0x19, .resyncDeinterleave)]

theorem mem_opcodeTable_iff (op : Nat) (i : Instr) : (op, i) ∈ opcodeTable ↔ op = i.opcode.toNat := by
  cases i <;> simp [opcodeTable, Instr.opcode]

/-- Settles O2: both fields as numbers, and the table as the list of all commands' opcodes. -/
theorem decodeSelectsByTheOpcodeTable : Obligations.DecodeSelectsByTheOpcodeTable := by
  intro w
  constructor
  · intro i
    change _ ↔ _ ∧ _ ∈ opcodeTable
    rw [decode_eq_command_iff_toNat, mem_opcodeTable_iff]
  · cases decode w with
    | command i => simp
    | illegal why => simp

/-- Settles O1: each of the first nine words is its command's encoding, and the last two have a ground of R113 each. -/
theorem writtenOutWordsDecode : Obligations.WrittenOutWordsDecode :=
  ⟨decode_encode .nop, decode_encode .sqrtInit, decode_encode .sqrtRelease, decode_encode .sqrtLookup,
    decode_encode .diffDecode, decode_encode .syncLocate, decode_encode .resync, decode_encode .deinterleave,
    decode_encode .resyncDeinterleave, by decide, by decide⟩

end Sys2Proof

namespace Sys2Proof.Machine

/-! ### Illegal command words (30_encoding.md R113, 44_host_interface.md R247) -/

/-- R113's undefined ranges of OPCODE. -/
def UndefinedOpcode (op : Nat) : Prop :=
  (0x04 ≤ op ∧ op ≤ 0x07) ∨ (0x09 ≤ op ∧ op ≤ 0x0F) ∨ (0x12 ≤ op ∧ op ≤ 0x17) ∨ 0x1A ≤ op

/-- R113's two grounds. -/
def IllegalCommandWord (w : Word) : Prop := w.toNat / 256 ≠ 0 ∨ UndefinedOpcode (w.toNat % 256)

/-- The opcodes outside the undefined ranges are those of R111's table. -/
theorem exists_opcode_iff (op : Nat) : (∃ i : Instr, op = i.opcode.toNat) ↔ ¬ UndefinedOpcode op := by
  unfold UndefinedOpcode
  constructor
  · rintro ⟨i, rfl⟩
    cases i <;> decide
  · intro h
    obtain rfl | rfl | rfl | rfl | rfl | rfl | rfl | rfl | rfl : op = 0x00 ∨ op = 0x01 ∨ op = 0x02 ∨ op = 0x03 ∨
      op = 0x08 ∨ op = 0x10 ∨ op = 0x11 ∨ op = 0x18 ∨ op = 0x19 := by omega
    exacts [⟨.nop, rfl⟩, ⟨.sqrtInit, rfl⟩, ⟨.sqrtRelease, rfl⟩, ⟨.sqrtLookup, rfl⟩, ⟨.diffDecode, rfl⟩,
      ⟨.syncLocate, rfl⟩, ⟨.resync, rfl⟩, ⟨.deinterleave, rfl⟩, ⟨.resyncDeinterleave, rfl⟩]

theorem exists_decode_command_iff (w : Word) : (∃ i, decode w = .command i) ↔ ¬ IllegalCommandWord w := by
  rw [IllegalCommandWord, not_or, not_not, ← exists_opcode_iff, ← exists_and_left]
  exact exists_congr (decode_eq_command_iff_toNat w)

theorem exists_decode_illegal {w : Word} (h : IllegalCommandWord w) : ∃ why, decode w = .illegal why := by
  cases hd : decode w with
  | command i => exact absurd h ((exists_decode_command_iff w).1 ⟨i, hd⟩)
  | illegal why => exact ⟨why, rfl⟩

theorem engineStep_of_illegal {s : State} {w : Word} {why : IllegalWord} (hw : s.pending = some w)
    (hd : decode w = .illegal why) : engineStep s = .next (s.raiseError .illegalCmd) := by
  simp only [engineStep, hw, hd]
  rfl

/-! ### The engine's turn (44_host_interface.md R243, R246) -/

theorem step_of_mover_engine {s : State} (hf : s.hostFault = false) (hm : s.mover = some .engine) :
    step s = engineStep s.takeTurn := by
  simp [step, hf, hm]

/-- The engine moves when it heads the schedule, and when the schedule has run out (log 3). -/
theorem mover_of_busy {s : State} {w : Word} {op : HostOp} {rest : List HostOp} (hw : s.pending = some w)
    (hp : s.hostProgram = op :: rest) : s.mover = some (s.schedule.headD .engine) := by
  simp [State.mover, hw, hp]

theorem withFetchWord_toNat (s : State) (w : Word) :
    s.withFetchWord 32 w.toNat = { s.launch w with schedule := .engine :: s.schedule } := by
  rw [State.withFetchWord, Nat.mod_eq_of_lt w.isLt, BitVec.ofNat_toNat, BitVec.setWidth_eq]

/-- The step after `withFetchWord` is the engine's on the launched word (log 15). -/
theorem step_withFetchWord {s : State} (hf : s.hostFault = false) (w : Word) :
    step (s.withFetchWord 32 w.toNat) = engineStep (s.launch w) := by
  rw [withFetchWord_toNat]
  have hm : State.mover { s.launch w with schedule := .engine :: s.schedule } = some .engine := by
    unfold State.mover
    cases hp : s.hostProgram <;> simp [State.launch, hp]
  exact step_of_mover_engine hf hm

/-- LAST_OP after a launch (44_host_interface.md R244). -/
theorem extractLsb'_low_byte (w : Word) : w.extractLsb' 0 8 = BitVec.ofNat 8 (w.toNat % 256) := by
  refine BitVec.eq_of_toNat_eq ?_
  rw [extractLsb'_toNat_eq_div_mod, BitVec.toNat_ofNat]
  omega

/-- Settles O4: the launched illegal word decodes to ILLEGAL, and the engine raises ILLEGAL_CMD on the launch's state. -/
theorem illegalWordRaisesIllegalCmd : Obligations.IllegalWordRaisesIllegalCmd := by
  intro s w hf op illegal
  constructor
  · intro h
    obtain ⟨why, hd⟩ := exists_decode_illegal (w := w) h
    rw [step_withFetchWord hf, engineStep_of_illegal rfl hd, ← extractLsb'_low_byte]
    rfl
  · exact (exists_decode_command_iff w).2

/-! ### What each command may write (30_encoding.md R117) -/

/-- The end state `t` of command `i` from `s` differs from `s` only in what R117 lets `i` write. -/
def WritesOnly (i : Instr) (s t : State) : Prop :=
  t = { t with
    lastOp := s.lastOp, ctrlDiffSat := s.ctrlDiffSat, srcBase := s.srcBase, srcLen := s.srcLen, dstBase := s.dstBase,
    locStride := s.locStride, locDepth := s.locDepth, locWindow := s.locWindow, resyncCfg := s.resyncCfg, sqrtArg := s.sqrtArg,
    symMemSize := s.symMemSize, hostFault := s.hostFault, hostProgram := s.hostProgram, schedule := s.schedule,
    hostReceived := s.hostReceived, draws := s.draws } ∧
  (i ≠ .syncLocate → t.syncOffset = s.syncOffset ∧ t.syncByte = s.syncByte) ∧
  (i ≠ .sqrtLookup → t.sqrtRes = s.sqrtRes) ∧
  (i ∉ [.resync, .deinterleave, .resyncDeinterleave] → t.resultLen = s.resultLen) ∧
  (i ≠ .diffDecode → t.diffPrevI = s.diffPrevI ∧ t.diffPrevQ = s.diffPrevQ) ∧
  (i ∉ [.sqrtInit, .sqrtRelease] → t.tableState = s.tableState) ∧
  (i ∉ [.diffDecode, .resync, .deinterleave, .resyncDeinterleave] → t.mem = s.mem)

theorem raiseError_writesOnly (i : Instr) (s : State) (c : ErrCode) : WritesOnly i s (s.raiseError c) :=
  ⟨rfl, fun _ => ⟨rfl, rfl⟩, fun _ => rfl, fun _ => rfl, fun _ => ⟨rfl, rfl⟩, fun _ => rfl, fun _ => rfl⟩

/-- RESYNC_CORE writes RESULT_LEN, FOUND and memory, and leaves the rest (40_sync_detector.md R156). -/
theorem resynchronized_frame (s : State) :
    s.resynchronized =
      { s with mem := s.resynchronized.mem, resultLen := s.resynchronized.resultLen, found := s.resynchronized.found } := rfl

/-- A command that completes is no longer pending, and has written only its own registers. -/
theorem Completes.ends {i : Instr} {s t : State} (hc : Completes i s t) : t.pending = none ∧ WritesOnly i s t := by
  unfold WritesOnly
  cases i with
  | nop =>
    subst hc
    exact ⟨rfl, rfl, by simp⟩
  | sqrtInit | sqrtRelease =>
    obtain ⟨-, rfl⟩ := hc
    exact ⟨rfl, rfl, by simp⟩
  | sqrtLookup =>
    obtain ⟨-, -, -, rfl⟩ := hc
    exact ⟨rfl, rfl, by simp⟩
  | diffDecode =>
    obtain ⟨-, -, -, -, rfl⟩ := hc
    exact ⟨rfl, rfl, by simp⟩
  | syncLocate =>
    obtain ⟨-, ⟨o, b, -, rfl⟩ | ⟨-, rfl⟩⟩ := hc <;> exact ⟨rfl, rfl, by simp⟩
  | resync =>
    obtain ⟨-, rfl⟩ := hc
    rw [resynchronized_frame]
    exact ⟨rfl, rfl, by simp⟩
  | deinterleave =>
    obtain ⟨-, -, -, rfl⟩ := hc
    exact ⟨rfl, rfl, by simp⟩
  | resyncDeinterleave =>
    obtain ⟨-, -, -, ⟨-, rfl⟩ | ⟨-, -, rfl⟩ | ⟨-, -, rfl⟩⟩ := hc <;> rw [resynchronized_frame] <;>
      exact ⟨rfl, rfl, by simp⟩

/-- Settles O26: an error writes STATUS only, and a command that completes writes its own registers. -/
theorem commandsWriteOnlyTheirRegisters : Obligations.CommandsWriteOnlyTheirRegisters := by
  intro i s t ht
  obtain ⟨t', ht', ⟨c, -, rfl⟩ | hc⟩ := exec_cases i s <;> cases ht.symm.trans ht'
  · exact raiseError_writesOnly i s c
  · obtain ⟨-, hwrites⟩ := hc.ends
    exact hwrites

end Sys2Proof.Machine

namespace Sys2Proof.Machine

/-! ### The engine's step does not depend on the host beside it (44_host_interface.md R243) -/

/-- `s` with another host beside it: its program, its schedule and what it has received. -/
def State.besideHost (s : State) (program : List HostOp) (schedule : List Agent) (received : List Word) : State :=
  { s with hostProgram := program, schedule := schedule, hostReceived := received }

/-- The outcome with `f` applied to its next state. -/
def mapNext (f : State → State) : Host.Outcome State Fault Refusal → Host.Outcome State Fault Refusal
  | .next t => .next (f t)
  | .fault r => .fault r
  | .refused r => .refused r

section BesideHost

variable (s : State) (program : List HostOp) (schedule : List Agent) (received : List Word)

theorem execSyncLocate_besideHost :
    execSyncLocate (s.besideHost program schedule received) =
      mapNext (·.besideHost program schedule received) (execSyncLocate s) := by
  by_cases hr : RegionValid s.symMemSize s.src s.locateSpan
  · cases hl : locate (s.sym s.src) s.locateSpan s.stride s.depth s.window with
    | none =>
      rw [execSyncLocate_of_none hr hl]
      exact execSyncLocate_of_none (s := s.besideHost program schedule received) hr hl
    | some r =>
      rw [execSyncLocate_of_found hr hl]
      exact execSyncLocate_of_found (s := s.besideHost program schedule received) hr hl
  · rw [execSyncLocate_of_invalid hr]
    exact execSyncLocate_of_invalid (s := s.besideHost program schedule received) hr

/-- Both runs of a command make the same checks on the same registers and memory. -/
theorem exec_besideHost (i : Instr) :
    exec i (s.besideHost program schedule received) = mapNext (·.besideHost program schedule received) (exec i s) := by
  cases i with
  | nop => rfl
  | syncLocate => exact execSyncLocate_besideHost s program schedule received
  | sqrtInit | sqrtRelease | sqrtLookup | diffDecode | resync | deinterleave | resyncDeinterleave =>
    simp only [exec, execSqrtInit, execSqrtRelease, execSqrtLookup, execDiffDecode, execResync, execDeinterleave,
      execResyncDeinterleave, apply_ite (mapNext _)]
    rfl

theorem engineStep_besideHost :
    engineStep (s.besideHost program schedule received) =
      mapNext (·.besideHost program schedule received) (engineStep s) := by
  have hpending : (s.besideHost program schedule received).pending = s.pending := rfl
  unfold engineStep
  rw [hpending]
  cases s.pending with
  | none => rfl
  | some w =>
    simp only []
    cases decode w with
    | command i => exact exec_besideHost s program schedule received i
    | illegal why => rfl

end BesideHost

/-- The engine's step ends the pending command, and leaves HOST_FAULT as it was. -/
theorem engineStep_ends {s t : State} {w : Word} (hw : s.pending = some w) (ht : engineStep s = .next t) :
    t.pending = none ∧ t.hostFault = s.hostFault := by
  obtain ⟨t', ht', ⟨c, -, rfl⟩ | ⟨i, -, hc⟩⟩ := engineStep_cases s w hw <;> cases ht.symm.trans ht'
  · exact ⟨rfl, rfl⟩
  · obtain ⟨hp, hframe, -⟩ := hc.ends
    refine ⟨hp, ?_⟩
    rw [hframe]

/-! ### Runs of several steps -/

/-- Some number of steps leads from `s` to `t`. -/
def Reaches (s t : State) : Prop := ∃ k, Host.Core.run core k s = .next t

theorem Reaches.refl (s : State) : Reaches s s := ⟨0, rfl⟩

theorem run_succ {M : Host.Core} {s t : M.State} (k : Nat) (h : M.step s = .next t) : M.run (k + 1) s = M.run k t := by
  rw [Host.Core.run, h]

/-- A run begins with a step. -/
theorem Reaches.head {s t u : State} (h : step s = .next t) : Reaches t u → Reaches s u
  | ⟨k, hk⟩ => ⟨k + 1, (run_succ (M := core) k h).trans hk⟩

/-! ### POLL (30_encoding.md R116) -/

/-- Bit 0 of the STATUS word is BUSY (10_state.md R34). -/
theorem statusWord_getLsbD_zero (s : State) : s.statusWord.getLsbD 0 = s.pending.isSome := by
  obtain ⟨h, -⟩ := statusWordHasTheStatedLayout s
  exact h

/-- POLL repeats its read while a command is pending. -/
theorem hostPoll_of_busy {s : State} {w : Word} (rest : List HostOp) (hw : s.pending = some w) :
    s.hostPoll rest = s.receive s.statusWord :=
  if_pos (by rw [statusWord_getLsbD_zero, hw, Option.isSome_some])

/-- POLL ends with a read while no command is pending. -/
theorem hostPoll_of_idle {s : State} (rest : List HostOp) (hi : s.pending = none) :
    s.hostPoll rest = { s.receive s.statusWord with hostProgram := rest } :=
  if_neg (by rw [statusWord_getLsbD_zero, hi]; decide)

/-- While BUSY = 1 a step uses up the schedule's next entry. -/
theorem takeTurn_of_busy {s : State} {w : Word} (hw : s.pending = some w) :
    s.takeTurn = { s with schedule := s.schedule.tail } := by
  rw [State.takeTurn, if_pos (busy_of_pending hw)]

section Poll

variable {s : State} (rest : List HostOp) (received : List Word)

/-- The last read of POLL, with no command pending. -/
theorem step_poll_of_idle (hf : s.hostFault = false) (hi : s.pending = none) (schedule : List Agent) :
    step (s.besideHost (.poll :: rest) schedule received) =
      .next (s.besideHost rest schedule (s.statusWord :: received)) := by
  rw [step_of_idle (s := s.besideHost (.poll :: rest) schedule received) hf hi rfl]
  exact congrArg _ (hostPoll_of_idle (s := s.besideHost (.poll :: rest) schedule received) rest hi)

variable {w : Word} (hf : s.hostFault = false) (hw : s.pending = some w)

include hf hw

/-- A read of POLL while the command is pending, on the host's turn. -/
theorem step_poll_of_busy (schedule : List Agent) :
    step (s.besideHost (.poll :: rest) (.host :: schedule) received) =
      .next (s.besideHost (.poll :: rest) schedule (s.statusWord :: received)) := by
  have hb : (s.besideHost (.poll :: rest) (.host :: schedule) received).pending = some w := hw
  rw [step_of_mover_host (by exact hf) (mover_of_busy hb rfl), takeTurn_of_busy hb]
  exact congrArg _ (hostPoll_of_busy (s := s.besideHost (.poll :: rest) schedule received) rest hw)

/-- The engine's turn at POLL, then POLL's last read. -/
theorem reaches_poll_end_of_engine {u : State} (hu : engineStep s = .next u) {schedule : List Agent}
    (hturn : schedule.headD .engine = .engine) :
    Reaches (s.besideHost (.poll :: rest) schedule received)
      (u.besideHost rest schedule.tail (u.statusWord :: received)) := by
  have hb : (s.besideHost (.poll :: rest) schedule received).pending = some w := hw
  have hengine : step (s.besideHost (.poll :: rest) schedule received) =
      .next (u.besideHost (.poll :: rest) schedule.tail received) := by
    rw [step_of_mover_engine (by exact hf) ((mover_of_busy hb rfl).trans (congrArg some hturn)), takeTurn_of_busy hb]
    exact (engineStep_besideHost s (.poll :: rest) schedule.tail received).trans (congrArg _ hu)
  obtain ⟨hidle, hfault⟩ := engineStep_ends hw hu
  exact .head hengine (.head (step_poll_of_idle rest received (hfault.trans hf) hidle _) (.refl _))

/-- POLL under a finite schedule: `n` reads of STATUS with BUSY = 1, the engine's step, and one read with BUSY = 0. -/
theorem reaches_poll_end {u : State} (hu : engineStep s = .next u) (schedule : List Agent) :
    ∃ n later, Reaches (s.besideHost (.poll :: rest) schedule received)
      (u.besideHost rest later (u.statusWord :: (List.replicate n s.statusWord ++ received))) := by
  induction schedule generalizing received with
  | nil => exact ⟨0, _, reaches_poll_end_of_engine rest received hf hw hu rfl⟩
  | cons agent schedule ih =>
    cases agent with
    | engine => exact ⟨0, _, reaches_poll_end_of_engine rest received hf hw hu rfl⟩
    | host =>
      obtain ⟨n, later, h⟩ := ih (s.statusWord :: received)
      refine ⟨n + 1, later, .head (step_poll_of_busy rest received hf hw schedule) ?_⟩
      rwa [List.replicate_succ', List.append_assoc]

end Poll

/-- Settles O16, by induction on the schedule: each entry of the host is one more read, and the engine moves at its own first
entry or when the schedule runs out. -/
theorem pollEndsAfterTheEngineStep : Obligations.PollEndsAfterTheEngineStep := by
  intro s w rest hf hw hp
  obtain ⟨u, hu, -⟩ := engineStep_cases s w hw
  obtain ⟨hidle, -⟩ := engineStep_ends hw hu
  obtain ⟨n, later, k, hk⟩ := reaches_poll_end rest s.hostReceived hf hw hu s.schedule
  have hs : s.besideHost (.poll :: rest) s.schedule s.hostReceived = s := hp ▸ rfl
  rw [hs] at hk
  refine ⟨k, _, u, hk, hu, rfl, hidle, rfl, u.statusWord, List.replicate n s.statusWord, rfl, ?_, ?_⟩
  · rw [statusWord_getLsbD_zero, hidle, Option.isSome_none]
  · exact fun _ => List.eq_of_mem_replicate

end Sys2Proof.Machine

namespace Sys2Proof.Machine

/-! ### Hard decisions and the search, against the rules' own relations (40_sync_detector.md R140 to R146) -/

/-- A symbol is below 128 exactly when its top bit is clear (40_sync_detector.md R140). -/
theorem decide_lt_128_eq (b : Byte) : decide (b.toNat < 128) = !b.getLsbD 7 := by
  have hmsb : b.getLsbD 7 = decide (128 ≤ b.toNat) := b.msb_eq_getLsbD_last.symm.trans b.msb_eq_decide
  rw [hmsb, ← decide_not, decide_eq_decide, Nat.not_le]

theorem showsByte_iff (X : Nat → Byte) (p : Nat) (b : Byte) : ShowsByte X p b ↔ b = hardByte X p := by
  constructor
  · intro h
    refine BitVec.eq_of_getLsbD_eq fun j hj => ?_
    rw [hardByte_getLsbD X p hj, Bool.eq_iff_iff, decide_eq_true_iff]
    exact h j hj
  · rintro rfl j hj
    rw [hardByte_getLsbD X p hj, decide_eq_true_iff]

/-- Settles O41: a byte is fixed by its eight bits, and bit j of HB is the hard bit of symbol j. -/
theorem hardByteShowsTheHardBits : Obligations.HardByteShowsTheHardBits := by
  refine ⟨fun _ => rfl, fun b => ?_, rfl, rfl, rfl, rfl, showsByte_iff⟩
  rw [hd_eq_toNat, decide_lt_128_eq]
  cases b.getLsbD 7 <;> rfl

theorem qualifies_rel_iff (X : Nat → Byte) (len stride depth o : Nat) (b : Byte) :
    Qualifies X len stride depth o b ↔ qualifies X len stride depth o = true ∧ b = hardByte X o := by
  simp only [Qualifies, showsByte_iff, qualifies_iff, and_assoc]
  refine and_congr_right fun _ => ⟨?_, ?_⟩
  · rintro ⟨rfl, h⟩
    exact ⟨fun k h1 hk => (h k h1 hk).symm, rfl⟩
  · rintro ⟨h, rfl⟩
    exact ⟨rfl, fun k h1 hk => (h k h1 hk).symm⟩

theorem forall_not_qualifies_iff (X : Nat → Byte) (len stride depth o : Nat) :
    (∀ c, ¬ Qualifies X len stride depth o c) ↔ qualifies X len stride depth o = false := by
  simp [qualifies_rel_iff]

theorem firstQualifying_iff (X : Nat → Byte) (len stride depth window o : Nat) (b : Byte) :
    FirstQualifying X len stride depth window o b ↔ locate X len stride depth window = some (o, b) := by
  simp only [FirstQualifying, forall_not_qualifies_iff]
  rw [qualifies_rel_iff, and_assoc, locate_some_iff]

theorem noneQualifies_iff (X : Nat → Byte) (len stride depth window : Nat) :
    NoneQualifies X len stride depth window ↔ locate X len stride depth window = none := by
  simp only [NoneQualifies, forall_not_qualifies_iff, locate_none_iff]

/-- Settles O42: the two relations are LOCATE's two answers. -/
theorem locateFindsTheFirstOccurrence : Obligations.LocateFindsTheFirstOccurrence := fun X len stride depth window =>
  ⟨fun o b => (firstQualifying_iff X len stride depth window o b).symm,
    (noneQualifies_iff X len stride depth window).symm⟩

/-- LOCATE compares hard-decision bytes of one sequence with one another only, so an injective change of all of them
changes nothing but the byte reported (40_sync_detector.md R144, R146). -/
theorem locate_of_hardByte_map {X Y : Nat → Byte} {len : Nat} {f : Byte → Byte} (hf : f.Injective)
    (h : ∀ p, p + 8 ≤ len → hardByte Y p = f (hardByte X p)) (stride depth window : Nat) :
    locate Y len stride depth window = (locate X len stride depth window).map fun r => (r.1, f r.2) := by
  have hq (o : Nat) : qualifies Y len stride depth o = qualifies X len stride depth o := by
    rw [Bool.eq_iff_iff, qualifies_iff, qualifies_iff]
    refine and_congr_right fun hin => forall₃_congr fun k _ hk => ?_
    have hmul : k * stride ≤ stride * depth := Nat.mul_comm stride depth ▸ Nat.mul_le_mul_right stride hk
    rw [h (o + k * stride) (by omega), h o (by omega), hf.eq_iff]
  cases hX : locate X len stride depth window with
  | none =>
    rw [Option.map_none, locate_none_iff]
    simpa only [hq] using (locate_none_iff X len stride depth window).1 hX
  | some r =>
    obtain ⟨hwin, hok, hbyte, hfirst⟩ := (locate_some_iff X len stride depth window r.1 r.2).1 hX
    obtain ⟨hin, -⟩ := (qualifies_iff X len stride depth r.1).1 hok
    rw [Option.map_some, locate_some_iff]
    simp only [hq]
    exact ⟨hwin, hok, by rw [hbyte, h r.1 (by omega)], hfirst⟩

/-- Settles O43: the two sequences have the same hard-decision bytes. -/
theorem locateReadsOnlyHardBitsInside : Obligations.LocateReadsOnlyHardBitsInside := by
  intro X Y len stride depth window h
  have hbyte (p : Nat) (hp : p + 8 ≤ len) : hardByte Y p = id (hardByte X p) :=
    (hardByte_eq_iff Y X p p).2 fun j hj => (h (p + j) (by omega)).symm
  rw [locate_of_hardByte_map Function.injective_id hbyte]
  exact Option.map_id_apply.symm

/-- Settles O44: the complement is injective on bytes. -/
theorem locateOfInvertedHardBits : Obligations.LocateOfInvertedHardBits := by
  intro X Y len stride depth window h
  refine locate_of_hardByte_map (fun a b hab => BitVec.not_inj.1 hab) (fun p hp => ?_) stride depth window
  refine BitVec.eq_of_getLsbD_eq fun j hj => ?_
  rw [BitVec.getLsbD_not, hardByte_getLsbD Y p hj, hardByte_getLsbD X p hj, decide_eq_true hj, Bool.true_and, ← decide_not,
    decide_eq_decide]
  exact iff_not_comm.1 (h (p + j) (by omega))

/-! ### SYNC_LOCATE (40_sync_detector.md R147) -/

/-- Settles O45: each clause is one of the three ways SYNC_LOCATE ends. -/
theorem syncLocateReportsTheSearch : Obligations.SyncLocateReportsTheSearch := by
  intro s src stride depth window span X
  refine ⟨fun hspan hout => execSyncLocate_of_invalid (not_or.2 ⟨hspan, Nat.not_le.2 hout⟩), fun hvalid =>
    ⟨fun o b hfound => ?_, fun hnone => ?_, ?_⟩⟩
  · exact execSyncLocate_of_found (r := (o, b)) hvalid ((firstQualifying_iff ..).1 hfound)
  · exact execSyncLocate_of_none hvalid ((noneQualifies_iff ..).1 hnone)
  · cases hl : locate X span stride depth window with
    | none => exact .inr ((noneQualifies_iff ..).2 hl)
    | some r => exact .inl ⟨r.1, r.2, (firstQualifying_iff ..).2 hl⟩

/-- With stride·depth = 0 each confirmation of offset 0 reads the byte at offset 0 itself (40_sync_detector.md R147 (a), (b)). -/
theorem locate_of_zero_reach {stride depth : Nat} (hzero : depth = 0 ∨ stride = 0) (X : Nat → Byte) {len window : Nat}
    (hwin : 0 < window) (hlen : 8 ≤ len) : locate X len stride depth window = some (0, hardByte X 0) := by
  have hreach : stride * depth = 0 := Nat.mul_eq_zero.2 hzero.symm
  refine (locate_some_iff ..).2 ⟨by omega, (qualifies_iff ..).2 ⟨by omega, fun k h1 hk => ?_⟩, rfl, fun q hq => by omega⟩
  rcases hzero with rfl | rfl
  · omega
  · simp

theorem locate_of_no_candidate (X : Nat → Byte) (len : Nat) {stride depth window : Nat} (h : window ≤ stride * depth) :
    locate X len stride depth window = none :=
  (locate_none_iff ..).2 fun o ho => by omega

/-- Settles O46: in (a) and (b) no candidate reaches past offset 0's own byte, in (c) there is no candidate. -/
theorem syncLocateCornerCases : Obligations.SyncLocateCornerCases := by
  intro s src window
  constructor
  · intro hzero hwin hin
    have hzero : s.depth = 0 ∨ s.stride = 0 := hzero.imp (congrArg BitVec.toNat) (congrArg BitVec.toNat)
    have hreach : s.stride * s.depth = 0 := Nat.mul_eq_zero.2 hzero.symm
    have hspan : s.locateSpan = window + 7 := if_pos (hreach ▸ hwin)
    exact execSyncLocate_of_found (.inr (hspan ▸ hin)) (locate_of_zero_reach hzero _ hwin (by omega))
  · intro hwin
    exact execSyncLocate_of_none (.inl (if_neg (Nat.not_lt.2 hwin))) (locate_of_no_candidate _ _ hwin)

/-! ### Tracking and acquisition, against the rules' own relations (40_sync_detector.md R152 to R155, R157) -/

theorem hardByte_eq_iff_showsByte (X : Nat → Byte) (p : Nat) (b : Byte) : hardByte X p = b ↔ ShowsByte X p b :=
  eq_comm.trans (showsByte_iff X p b).symm

theorem hardByte_shift (X : Nat → Byte) (pos o : Nat) : hardByte (fun i => X (pos + i)) o = hardByte X (pos + o) :=
  (hardByte_eq_iff ..).2 fun j _ => by rw [Nat.add_assoc]

section Runs

variable {X : Nat → Byte} {n la : Nat} {b : Byte}

theorem confirm_some_iff_shows {pos : Nat} (k : Nat) (hroom : pos + 80 ≤ n) :
    confirm X n la b pos = some k ↔
      k ≤ la ∧ pos + k * 80 + 80 ≤ n ∧ ShowsByte X (pos + k * 80) b ∧ ∀ q, q < k → ¬ ShowsByte X (pos + q * 80) b := by
  simp only [← hardByte_eq_iff_showsByte]
  exact confirm_some_iff X n la b pos k hroom

theorem confirm_none_iff_shows {pos : Nat} (hroom : pos + 80 ≤ n) :
    confirm X n la b pos = none ↔ ∀ k, k ≤ la → pos + k * 80 + 80 ≤ n → ¬ ShowsByte X (pos + k * 80) b := by
  simp only [← hardByte_eq_iff_showsByte]
  exact confirm_none_iff X n la b pos hroom

/-- The tracking loop is a run of the rules: the fuel outlasts the buffer. -/
theorem tracking_track {fuel pos : Nat} (hfuel : n - pos < fuel) :
    Tracking X n la b pos (track X n la b fuel pos).1 (track X n la b fuel pos).2 := by
  fun_induction track X n la b fuel pos with
  | case1 pos => omega
  | case2 fuel pos hroom hk => exact .lost hroom ((confirm_none_iff_shows hroom).1 hk)
  | case3 fuel pos hroom k hk rest ih =>
    obtain ⟨hla, hin, hshow, hfirst⟩ := (confirm_some_iff_shows k hroom).1 hk
    exact .confirmed hla hin hshow hfirst (ih (by omega))
  | case4 fuel pos hfull => exact .noRoom (Nat.not_le.1 hfull)

/-- Every run of the tracking rules is the loop's. -/
theorem Tracking.track_eq {pos e : Nat} {fs : List Nat} (h : Tracking X n la b pos fs e) {fuel : Nat}
    (hfuel : n - pos < fuel) : track X n la b fuel pos = (fs, e) := by
  induction h generalizing fuel with
  | noRoom hfull =>
    obtain ⟨fuel, rfl⟩ := Nat.exists_eq_succ_of_ne_zero (Nat.ne_zero_of_lt hfuel)
    exact if_neg (Nat.not_le.2 hfull)
  | lost hroom hlost =>
    obtain ⟨fuel, rfl⟩ := Nat.exists_eq_succ_of_ne_zero (Nat.ne_zero_of_lt hfuel)
    rw [track, if_pos hroom, (confirm_none_iff_shows hroom).2 hlost]
  | @confirmed pos k fs e hla hin hshow hfirst _ ih =>
    obtain ⟨fuel, rfl⟩ := Nat.exists_eq_succ_of_ne_zero (Nat.ne_zero_of_lt hfuel)
    have hroom : pos + 80 ≤ n := by omega
    rw [track, if_pos hroom, (confirm_some_iff_shows k hroom).2 ⟨hla, hin, hshow, hfirst⟩]
    simp only [ih (fuel := fuel) (by omega)]

/-- An acquired frame lies whole in the buffer and shows the acquired byte (40_sync_detector.md R157). -/
theorem acquired_frame {pos depth o : Nat} (hguard : pos + (depth + 1) * 80 ≤ n)
    (hl : locate (fun i => X (pos + i)) (n - pos) 80 depth ((depth + 1) * 80) = some (o, b)) :
    pos + o + 80 ≤ n ∧ hardByte X (pos + o) = b := by
  obtain ⟨hwin, hok, rfl, -⟩ := (locate_some_iff ..).1 hl
  obtain ⟨hin, -⟩ := (qualifies_iff ..).1 hok
  refine ⟨?_, (hardByte_shift X pos o).symm⟩
  rcases Nat.eq_zero_or_pos depth with rfl | hdepth
  · rw [locate_of_zero_reach (.inl rfl) _ (by omega) (by omega), Option.some.injEq, Prod.mk.injEq] at hl
    omega
  · omega

/-- Tracking confirms the acquired frame at once (40_sync_detector.md R157). -/
theorem le_track_of_match {fuel pos : Nat} (hroom : pos + 80 ≤ n) (hb : hardByte X pos = b) :
    pos + 80 ≤ (track X n la b (fuel + 1) pos).2 := by
  have hk : confirm X n la b pos = some 0 := if_pos hb
  obtain ⟨hlo, -⟩ := track_bounds X n la b fuel (pos + 0 * 80 + 80)
  rw [track, if_pos hroom, hk]
  dsimp only
  omega

variable {depth retry : Nat}

/-- The acquisition loop is a run of the rules: each turn moves the cursor by 80 at least (40_sync_detector.md R157). -/
theorem coarseRun_coarse (hretry : 1 ≤ retry) {fuel pos : Nat} (hfuel : n - pos < fuel) :
    CoarseRun X n depth retry la pos (coarse X n depth retry la fuel pos) := by
  fun_induction coarse X n depth retry la fuel pos with
  | case1 pos => omega
  | case2 fuel pos hguard hl ih => exact .retried hguard ((noneQualifies_iff ..).2 hl) (ih (by omega))
  | case3 fuel pos hguard o sync hl run ih =>
    obtain ⟨hroom, hb⟩ := acquired_frame hguard hl
    have hmoved : pos + o + 80 ≤ run.2 := le_track_of_match hroom hb
    have htrack : Tracking X n la sync (pos + o) run.1 run.2 := tracking_track (by omega)
    exact .acquired hguard ((firstQualifying_iff ..).2 hl) htrack (ih (by omega))
  | case4 fuel pos hend => exact .ends (Nat.not_le.1 hend)

/-- Every run of the acquisition rules is the loop's, from some fuel on (with retry 0 the rules give no bound). -/
theorem CoarseRun.coarse_eq {pos : Nat} {fs : List Nat} (h : CoarseRun X n depth retry la pos fs) :
    ∃ least, ∀ fuel, least ≤ fuel → coarse X n depth retry la fuel pos = fs := by
  induction h with
  | ends hend =>
    refine ⟨1, fun fuel hfuel => ?_⟩
    obtain ⟨fuel, rfl⟩ := Nat.exists_eq_add_of_le' hfuel
    exact if_neg (Nat.not_le.2 hend)
  | retried hguard hnone _ ih =>
    obtain ⟨least, ih⟩ := ih
    refine ⟨least + 1, fun fuel hfuel => ?_⟩
    obtain ⟨fuel, rfl⟩ := Nat.exists_eq_add_of_le' (Nat.le_of_add_left_le hfuel)
    rw [coarse, if_pos hguard, (noneQualifies_iff ..).1 hnone]
    exact ih fuel (by omega)
  | acquired hguard hfirst htrack _ ih =>
    obtain ⟨least, ih⟩ := ih
    refine ⟨least + 1, fun fuel hfuel => ?_⟩
    obtain ⟨fuel, rfl⟩ := Nat.exists_eq_add_of_le' (Nat.le_of_add_left_le hfuel)
    rw [coarse, if_pos hguard, (firstQualifying_iff ..).1 hfirst]
    simp only [htrack.track_eq (fuel := n + 1) (by omega), ih fuel (by omega)]

theorem CoarseRun.unique {pos : Nat} {fs gs : List Nat} (h : CoarseRun X n depth retry la pos fs)
    (h' : CoarseRun X n depth retry la pos gs) : fs = gs := by
  obtain ⟨least, hfs⟩ := h.coarse_eq
  obtain ⟨least', hgs⟩ := h'.coarse_eq
  exact (hfs _ (Nat.le_max_left least least')).symm.trans (hgs _ (Nat.le_max_right least least'))

end Runs

/-- Settles O48: both lists are the loop's at one large fuel. -/
theorem resyncRunIsUnique : Obligations.ResyncRunIsUnique :=
  fun _ _ _ _ _ _ _ _ hf hg => hf.unique hg

/-- Settles O49: with either fuel the loops make a run of the rules, and the rules allow one only. -/
theorem resyncEndsWithinItsBound : Obligations.ResyncEndsWithinItsBound := by
  intro X n depth retry la extra hretry
  refine ⟨(coarseRun_coarse hretry ?_).unique (coarseRun_coarse hretry ?_), fun sync pos => ?_⟩
  · omega
  · omega
  · have hrun : Tracking X n la sync pos (track X n la sync (n + 1) pos).1 (track X n la sync (n + 1) pos).2 :=
      tracking_track (by omega)
    exact hrun.track_eq (by omega)

/-! ### Where the confirmed frames lie (40_sync_detector.md R159) -/

/-- The frames are 80 symbols apart at least, and all between `lo` and `hi`. -/
def FramesWithin (lo hi : Nat) (fs : List Nat) : Prop :=
  fs.Pairwise (fun p q => p + 80 ≤ q) ∧ ∀ p ∈ fs, lo ≤ p ∧ p + 80 ≤ hi

namespace FramesWithin

theorem nil (lo hi : Nat) : FramesWithin lo hi [] := ⟨.nil, fun _ h => absurd h List.not_mem_nil⟩

theorem mono {lo lo' hi : Nat} {fs : List Nat} (h : FramesWithin lo hi fs) (hlo : lo' ≤ lo) : FramesWithin lo' hi fs :=
  ⟨h.1, fun p hp => (h.2 p hp).imp_left hlo.trans⟩

theorem append {lo mid hi : Nat} {fs gs : List Nat} (hf : FramesWithin lo mid fs) (hg : FramesWithin mid hi gs)
    (hlo : lo ≤ mid) (hhi : mid ≤ hi) : FramesWithin lo hi (fs ++ gs) := by
  refine ⟨List.pairwise_append.2 ⟨hf.1, hg.1, fun p hp q hq => (hf.2 p hp).2.trans (hg.2 q hq).1⟩, fun p hp => ?_⟩
  rcases List.mem_append.1 hp with hp | hp
  · exact (hf.2 p hp).imp_right hhi.trans'
  · exact (hg.2 p hp).imp_left hlo.trans

theorem cons {p lo hi : Nat} {fs : List Nat} (hp : lo ≤ p) (hg : FramesWithin (p + 80) hi fs) (hhi : p + 80 ≤ hi) :
    FramesWithin lo hi (p :: fs) :=
  append (fs := [p]) ⟨List.pairwise_singleton .., fun q hq => by rw [List.mem_singleton.1 hq]; exact ⟨hp, le_rfl⟩⟩ hg
    (by omega) hhi

end FramesWithin

theorem track_framesWithin (X : Nat → Byte) (n la : Nat) (sync : Byte) (fuel pos : Nat) :
    FramesWithin pos (track X n la sync fuel pos).2 (track X n la sync fuel pos).1 := by
  fun_induction track X n la sync fuel pos with
  | case1 pos => exact .nil ..
  | case2 fuel pos hroom hk => exact .nil ..
  | case3 fuel pos hroom k hk rest ih =>
    obtain ⟨hlo, -⟩ := track_bounds X n la sync fuel (pos + k * 80 + 80)
    exact .cons (Nat.le_add_right ..) ih (Nat.le_of_add_right_le hlo)
  | case4 fuel pos hfull => exact .nil ..

theorem coarse_framesWithin (X : Nat → Byte) (n depth retry la fuel pos : Nat) :
    FramesWithin pos n (coarse X n depth retry la fuel pos) := by
  fun_induction coarse X n depth retry la fuel pos with
  | case1 pos => exact .nil ..
  | case2 fuel pos hguard hl ih => exact ih.mono (Nat.le_add_right ..)
  | case3 fuel pos hguard o sync hl run ih =>
    obtain ⟨hroom, -⟩ := acquired_frame hguard hl
    obtain ⟨hlo, hhi⟩ : pos + o + 80 * run.1.length ≤ run.2 ∧ run.2 ≤ max (pos + o) n := track_bounds ..
    have hrun : FramesWithin pos run.2 run.1 :=
      (track_framesWithin X n la sync (n + 1) (pos + o)).mono (Nat.le_add_right ..)
    exact hrun.append ih (by omega) (by omega)
  | case4 fuel pos hend => exact .nil ..

theorem resyncFrames_length_le (X : Nat → Byte) (n depth retry la : Nat) :
    (resyncFrames X n depth retry la).length ≤ n / 80 := by
  have := coarse_length_le X n depth retry la (n + 1) 0
  rw [resyncFrames]
  omega

/-! ### RESYNC (40_sync_detector.md R156) -/

/-- The positions of the frames that RESYNC_CORE confirms in the region (src, n). -/
def State.confirmedFrames (s : State) : List Nat :=
  resyncFrames (s.sym s.src) s.n s.acqDepth s.retry s.lookahead

theorem compacted_length_eq (s : State) : s.compacted.length = 72 * s.confirmedFrames.length := compacted_length s

/-- RESYNC_CORE's frames are those of a run of the rules from cursor 0. -/
theorem coarseRun_confirmedFrames {s : State} (hretry : s.retry ≠ 0) :
    CoarseRun (s.sym s.src) s.n s.acqDepth s.retry s.lookahead 0 s.confirmedFrames :=
  coarseRun_coarse (Nat.one_le_iff_ne_zero.2 hretry) (by omega)

theorem acqDepth_eq (s : State) : s.acqDepth = s.resyncCfg.toNat % 256 := by
  rw [State.acqDepth, BitVec.extractLsb'_toNat, Nat.shiftRight_zero]

theorem retry_eq (s : State) : s.retry = s.resyncCfg.toNat / 256 % 256 := by
  rw [State.retry, BitVec.extractLsb'_toNat, Nat.shiftRight_eq_div_pow]

theorem lookahead_eq (s : State) : s.lookahead = s.resyncCfg.toNat / 65536 := by
  have hword := s.resyncCfg.isLt
  rw [State.lookahead, BitVec.extractLsb'_toNat, Nat.shiftRight_eq_div_pow]
  omega

/-- Inside the result, src holds the confirmed frames' data. -/
theorem read_resynchronized_inside {s : State} (hm : s.mem.wf) {k j : Nat} (hk : k < s.confirmedFrames.length)
    (hj : j < 72) :
    s.resynchronized.mem.read (s.src + (72 * k + j)) = s.mem.read (s.src + (s.confirmedFrames[k] + 8 + j)) := by
  have hin : 72 * k + j < s.compacted.length := by
    rw [compacted_length_eq]
    omega
  exact (Memory.read_writeBytes_inside hm s.src s.compacted _ hin).trans
    (flatMap_frameData_getElem (s.sym s.src) s.confirmedFrames k j hk hj hin)

/-- Outside the result nothing changes (40_sync_detector.md R160). -/
theorem read_resynchronized_outside (s : State) {a : Nat} (h : a < s.src ∨ s.src + 72 * s.confirmedFrames.length ≤ a) :
    s.resynchronized.mem.read a = s.mem.read a :=
  Memory.read_writeBytes_outside s.mem s.compacted (by rwa [compacted_length_eq])

/-- The registers and flags after RESYNC_CORE, by the number of confirmed frames. -/
theorem resynchronized_eq (s : State) :
    s.resynchronized = { s with
      mem := s.resynchronized.mem, resultLen := BitVec.ofNat 32 (72 * s.confirmedFrames.length),
      found := decide (s.confirmedFrames ≠ []) } := by
  have hfound : decide (s.compacted.length > 0) = decide (s.confirmedFrames ≠ []) := by
    rw [decide_eq_decide, compacted_length_eq, ← List.length_pos_iff]
    omega
  rw [State.resynchronized, State.reportLength, hfound, compacted_length_eq]

theorem compacted_length_eq_zero_iff (s : State) : s.compacted.length = 0 ↔ s.confirmedFrames = [] := by
  rw [compacted_length_eq, ← List.length_eq_zero_iff]
  omega

theorem execResync_of_allowed {s : State} (h : ResyncAllowed s) :
    execResync s = completeWith (if s.confirmedFrames = [] then .noSync else .ok) s.resynchronized := by
  rw [execResync, if_neg h.1, if_neg (not_not.2 h.2)]
  simp only [compacted_length_eq_zero_iff]

/-- Settles O47: the loop's frames are a run of the rules, and the stored bytes are their data. -/
theorem resyncCompactsTheConfirmedFrames : Obligations.ResyncCompactsTheConfirmedFrames := by
  intro s hm src n depth retry la snap refused
  have hretry : s.retry = retry := retry_eq s
  refine ⟨fun hzero => if_pos (hretry.trans hzero), fun hne hn hout => ?_, fun hne hin => ?_⟩
  · exact (if_neg (hretry ▸ hne)).trans (if_pos (not_or.2 ⟨hn, Nat.not_le.2 hout⟩))
  · have hallowed : ResyncAllowed s := ⟨hretry ▸ hne, hin⟩
    have hrun := coarseRun_confirmedFrames hallowed.1
    rw [acqDepth_eq, retry_eq, lookahead_eq] at hrun
    refine ⟨s.confirmedFrames, _, hrun, execResync_of_allowed hallowed, ?_, fun k j hk hj => ?_, fun a ha => ?_⟩
    · rw [resynchronized_eq]
      rfl
    · exact read_resynchronized_inside hm hk hj
    · exact read_resynchronized_outside s ha

/-- Settles O51: at most one frame per 80 symbols, 72 stored for each. -/
theorem resyncShrinksItsInput : Obligations.ResyncShrinksItsInput := by
  constructor
  · intro X n depth retry la fs
    obtain ⟨hapart, hwhole⟩ := coarse_framesWithin X n depth retry la (n + 1) 0
    exact ⟨hapart, fun p hp => (hwhole p hp).2, resyncFrames_length_le X n depth retry la⟩
  · intro s hretry hin
    have hle : s.confirmedFrames.length ≤ s.srcLen.toNat / 80 := resyncFrames_length_le ..
    have hlen : s.resynchronized.resultLen.toNat = 72 * s.confirmedFrames.length := by
      have := s.srcLen.isLt
      rw [resynchronized_eq, BitVec.toNat_ofNat]
      omega
    refine ⟨_, execResync_of_allowed ⟨hretry, hin⟩, hlen, ?_, fun hne => ?_⟩
    · rw [State.complete_resultLen]
      omega
    · have hpos : s.resynchronized.resultLen.toNat ≠ 0 := fun h => hne (BitVec.eq_of_toNat_eq h)
      rw [State.complete_resultLen]
      omega

/-- When LOCATE finds nothing at any retry of the cursor, no frame is confirmed. -/
theorem coarse_of_no_acquisition {X : Nat → Byte} {n depth retry : Nat} (la : Nat)
    (h : ∀ k, k * (retry * 80) + (depth + 1) * 80 ≤ n →
      NoneQualifies (fun i => X (k * (retry * 80) + i)) (n - k * (retry * 80)) 80 depth ((depth + 1) * 80))
    (fuel k : Nat) : coarse X n depth retry la fuel (k * (retry * 80)) = [] := by
  induction fuel generalizing k with
  | zero => rfl
  | succ fuel ih =>
    by_cases hguard : k * (retry * 80) + (depth + 1) * 80 ≤ n
    · rw [coarse, if_pos hguard, (noneQualifies_iff ..).1 (h k hguard)]
      dsimp only
      rw [← Nat.succ_mul]
      exact ih (k + 1)
    · exact if_neg hguard

/-- Settles O52: without a confirmed frame the stored data is empty. -/
theorem noAcquisitionMeansNoWrite : Obligations.NoAcquisitionMeansNoWrite := by
  intro s src n hretry hin hnone
  have hframes : s.confirmedFrames = [] := by
    have := coarse_of_no_acquisition (X := s.sym s.src) (n := s.n) s.lookahead hnone (s.n + 1) 0
    rwa [Nat.zero_mul] at this
  have hmem : s.resynchronized.mem = s.mem := by
    rw [State.resynchronized, List.length_eq_zero_iff.1 ((compacted_length_eq_zero_iff s).2 hframes)]
    rfl
  refine (execResync_of_allowed ⟨hretry, hin⟩).trans ?_
  rw [resynchronized_eq, hmem, hframes]
  rfl

/-! ### RESYNC_CORE in place (40_sync_detector.md R158) -/

/-- The write cursor has not passed the read cursor, and what is still to be read stands as in the snapshot. -/
structure UnreadIntact (snap : Nat → Byte) (src : Nat) (m : Memory) (rp pos : Nat) : Prop where
  behind : rp ≤ pos
  intact : ∀ i, pos ≤ i → m.read (src + i) = snap i

/-- One frame's copy writes behind what it still has to read (40_sync_detector.md R158). -/
theorem copyInPlace_eq_writeBytes {src rp pos : Nat} (h : rp ≤ pos + 8) (count j : Nat) (m : Memory) :
    copyInPlace src rp pos count j m =
      m.writeBytes (src + rp + j) ((List.range' j count).map fun i => m.read (src + (pos + 8 + i))) := by
  induction count generalizing j m with
  | zero => rfl
  | succ count ih =>
    rw [copyInPlace, ih, List.range'_succ, List.map_cons, Memory.writeBytes]
    refine congrArg _ (List.map_congr_left fun i hi => Memory.read_write_other m _ ?_)
    have := (List.mem_range'_1.1 hi).1
    omega

namespace UnreadIntact

variable {snap : Nat → Byte} {src rp pos : Nat} {m : Memory} (h : UnreadIntact snap src m rp pos)

include h

theorem store {bs : List Byte} {pos' : Nat} (hpos : pos ≤ pos') (hrp : rp + bs.length ≤ pos') :
    UnreadIntact snap src (m.writeBytes (src + rp) bs) (rp + bs.length) pos' where
  behind := hrp
  intact i hi := (Memory.read_writeBytes_outside m bs (.inr (by omega))).trans (h.intact i (by omega))

theorem advance {pos' : Nat} (hpos : pos ≤ pos') : UnreadIntact snap src m rp pos' :=
  ⟨h.behind.trans hpos, fun i hi => h.intact i (by omega)⟩

theorem confirm_eq (n la : Nat) (sync : Byte) (hroom : pos + 80 ≤ n) :
    confirm (fun i => m.read (src + i)) n la sync pos = confirm snap n la sync pos := by
  have hbyte (q : Nat) : hardByte (fun i => m.read (src + i)) (pos + q * 80) = hardByte snap (pos + q * 80) :=
    hardByte_congr fun j _ => h.intact _ (by omega)
  refine Option.ext fun k => ?_
  simp only [confirm_some_iff _ n la sync pos k hroom, hbyte]

theorem shift_eq : (fun i => m.read (src + (pos + i))) = fun i => snap (pos + i) :=
  funext fun _ => h.intact _ (Nat.le_add_right ..)

theorem copyInPlace_eq {p : Nat} (hp : pos ≤ p) :
    copyInPlace src rp p 72 0 m = m.writeBytes (src + rp) (frameData snap p) := by
  have := h.behind
  rw [copyInPlace_eq_writeBytes (by omega), frameData, List.range_eq_range', Nat.add_zero]
  exact congrArg _ (List.map_congr_left fun _ _ => h.intact _ (by omega))

/-- Tracking in place appends the data of the frames that tracking on the snapshot confirms. -/
theorem trackInPlace_eq (n la : Nat) (sync : Byte) (fuel : Nat) :
    trackInPlace src n la sync fuel m rp pos =
      (m.writeBytes (src + rp) ((track snap n la sync fuel pos).1.flatMap (frameData snap)),
        rp + ((track snap n la sync fuel pos).1.flatMap (frameData snap)).length,
        (track snap n la sync fuel pos).2) := by
  induction fuel generalizing m rp pos with
  | zero => rfl
  | succ fuel ih =>
    rw [trackInPlace, track]
    by_cases hroom : pos + 80 ≤ n
    · rw [if_pos hroom, if_pos hroom, h.confirm_eq n la sync hroom]
      cases confirm snap n la sync pos with
      | none => rfl
      | some k =>
        have hframe := h.store (bs := frameData snap (pos + k * 80)) (pos' := pos + k * 80 + 80) (by omega) (by
          have := h.behind
          rw [frameData_length]
          omega)
        rw [frameData_length] at hframe
        dsimp only
        rw [h.copyInPlace_eq (Nat.le_add_right pos (k * 80)), ih hframe, List.flatMap_cons, Memory.writeBytes_append,
          List.length_append, frameData_length, Nat.add_assoc src, Nat.add_assoc rp]
    · rw [if_neg hroom, if_neg hroom]
      rfl

/-- A sync run's data, at most 72 symbols per 80 of the cursor, stays behind the cursor. -/
theorem store_track (n la : Nat) (sync : Byte) (fuel : Nat) :
    UnreadIntact snap src
      (m.writeBytes (src + rp) ((track snap n la sync fuel pos).1.flatMap (frameData snap)))
      (rp + ((track snap n la sync fuel pos).1.flatMap (frameData snap)).length) (track snap n la sync fuel pos).2 := by
  obtain ⟨hlo, -⟩ := track_bounds snap n la sync fuel pos
  have := h.behind
  refine h.store (by omega) ?_
  rw [flatMap_frameData_length]
  omega

/-- Acquisition in place appends the data of the frames that the run on the snapshot confirms. -/
theorem resyncInPlace_eq (n depth retry la fuel : Nat) :
    resyncInPlace src n depth retry la fuel m rp pos =
      (m.writeBytes (src + rp) ((coarse snap n depth retry la fuel pos).flatMap (frameData snap)),
        rp + ((coarse snap n depth retry la fuel pos).flatMap (frameData snap)).length) := by
  induction fuel generalizing m rp pos with
  | zero => rfl
  | succ fuel ih =>
    rw [resyncInPlace, coarse]
    by_cases hguard : pos + (depth + 1) * 80 ≤ n
    · rw [if_pos hguard, if_pos hguard, h.shift_eq]
      cases locate (fun i => snap (pos + i)) (n - pos) 80 depth ((depth + 1) * 80) with
      | none => exact ih (h.advance (Nat.le_add_right ..))
      | some r =>
        have hacq := h.advance (Nat.le_add_right pos r.1)
        have hrun := hacq.store_track n la r.2 (n + 1)
        dsimp only
        rw [hacq.trackInPlace_eq, ih hrun, List.flatMap_append, Memory.writeBytes_append, List.length_append,
          Nat.add_assoc, Nat.add_assoc]
    · rw [if_neg hguard, if_neg hguard]
      rfl

end UnreadIntact

/-- Settles O50: at the start all is unread, and neither cursor has moved. -/
theorem resyncInPlaceEqualsTheSnapshot : Obligations.ResyncInPlaceEqualsTheSnapshot := by
  intro m src n depth retry la _ snap data
  have hstart : UnreadIntact snap src m 0 0 := ⟨le_rfl, fun _ _ => rfl⟩
  rw [hstart.resyncInPlace_eq, Nat.add_zero, Nat.zero_add]
  rfl

end Sys2Proof.Machine

namespace Sys2Proof.Machine

/-! ### The index map (41_deinterleaver.md R180, R183) -/

/-- DSRC with INTLV_B and INTLV_L written out (41_deinterleaver.md R180). -/
theorem dsrc_eq (i : Nat) : dsrc i = i + i % 36 * 73728 := rfl

/-- INTLV_L is a multiple of INTLV_B (41_deinterleaver.md R183). -/
theorem dsrc_mod (i : Nat) : dsrc i % 36 = i % 36 := by
  rw [dsrc_eq]
  omega

/-- Within one residue class DSRC adds a constant (41_deinterleaver.md R183). -/
theorem dsrc_injective : Function.Injective dsrc := by
  intro i j h
  have hres : i % 36 = j % 36 := by rw [← dsrc_mod i, h, dsrc_mod]
  rw [dsrc_eq, dsrc_eq] at h
  omega

theorem deinterleavedAt_of_filled (R : Nat → Byte) {len i : Nat} (h : dsrc i < len) :
    deinterleavedAt R len i = R (dsrc i) := if_pos h

theorem deinterleavedAt_of_unfilled (R : Nat → Byte) {len i : Nat} (h : ¬ dsrc i < len) :
    deinterleavedAt R len i = 0x00 := if_neg h

/-- Settles O54: a filled position reads the symbol that DSRC placed, every other one 0x00. -/
theorem deinterleaveInvertsOnFilledPositions : Obligations.DeinterleaveInvertsOnFilledPositions :=
  ⟨dsrc_mod, fun _ _ h => dsrc_injective h, fun _ Y _ hplaced i hi =>
    ⟨fun hf => (deinterleavedAt_of_filled Y hf).trans (hplaced i hi hf), deinterleavedAt_of_unfilled Y⟩⟩

/-! ### The filled positions of a full message (41_deinterleaver.md R182) -/

/-- The filled positions of branch k are the indices of its class below (36 − k)·73728. -/
theorem branch_filled_iff {i k : Nat} (hk : k < 36) :
    (i < 2654208 ∧ i % 36 = k ∧ dsrc i < 2654208) ↔ i < 36 * (2048 * (36 - k)) ∧ i % 36 = k := by
  rw [dsrc_eq]
  omega

theorem card_filter_mod_eq (q : Nat) {k : Nat} (hk : k < 36) :
    ((Finset.range (36 * q)).filter fun i => i % 36 = k).card = q := by
  have hclass (i : Nat) : i % 36 = k ↔ i ≡ k [MOD 36] := by rw [Nat.ModEq, Nat.mod_eq_of_lt hk]
  simp only [hclass]
  rw [← Nat.count_eq_card_filter_range, Nat.count_modEq_card _ (by decide)]
  simp

theorem card_branch_filled {k : Nat} (hk : k < 36) :
    ((Finset.range 2654208).filter fun i => i % 36 = k ∧ dsrc i < 2654208).card = 2048 * (36 - k) := by
  rw [← card_filter_mod_eq (2048 * (36 - k)) hk]
  refine congrArg Finset.card (Finset.ext fun i => ?_)
  simp only [Finset.mem_filter, Finset.mem_range]
  exact branch_filled_iff hk

/-- Each position lies in one branch, and 2048·(36 + 35 + … + 1) = 2048·666. -/
theorem card_filled : ((Finset.range 2654208).filter fun i => dsrc i < 2654208).card = 1363968 := by
  have hbranch (i : Nat) : i % 36 ∈ Finset.range 36 := Finset.mem_range.2 (Nat.mod_lt i (by decide))
  rw [Finset.card_eq_sum_card_fiberwise fun i _ => hbranch i]
  calc _ = ∑ k ∈ Finset.range 36, 2048 * (36 - k) := Finset.sum_congr rfl fun k hk => by
          rw [← card_branch_filled (Finset.mem_range.1 hk), Finset.filter_filter]
          simp only [and_comm]
    _ = 1363968 := by decide

theorem length_filter_range (p : Nat → Prop) [DecidablePred p] (n : Nat) :
    ((List.range n).filter fun i => decide (p i)).length = ((Finset.range n).filter p).card := rfl

/-- Settles O55: each branch is a residue class cut at its own bound. -/
theorem filledPositionsOfAFullMessage : Obligations.FilledPositionsOfAFullMessage :=
  ⟨fun _ _ => Iff.rfl, fun _ hk => (length_filter_range _ _).trans (card_branch_filled hk),
    (length_filter_range _ _).trans card_filled⟩

/-! ### NO_SHRINK (41_deinterleaver.md R186) -/

theorem Completes.outcome_ne_noShrink {i : Instr} {s t : State} (hc : Completes i s t) : t.outcome ≠ .noShrink := by
  cases i with
  | nop =>
    rw [show t = s.complete .ok from hc]
    nofun
  | sqrtInit | sqrtRelease =>
    obtain ⟨-, rfl⟩ := hc
    nofun
  | sqrtLookup | deinterleave =>
    obtain ⟨-, -, -, rfl⟩ := hc
    nofun
  | diffDecode =>
    obtain ⟨-, -, -, -, rfl⟩ := hc
    nofun
  | syncLocate => obtain ⟨-, ⟨_, _, -, rfl⟩ | ⟨-, rfl⟩⟩ := hc <;> nofun
  | resync =>
    obtain ⟨-, rfl⟩ := hc
    rw [State.complete_outcome]
    split <;> nofun
  | resyncDeinterleave =>
    obtain ⟨-, -, -, ⟨-, rfl⟩ | ⟨hnz, hge, -⟩ | ⟨-, -, rfl⟩⟩ := hc
    · nofun
    · exact absurd hge (Nat.not_le.2 (compacted_length_lt hnz))
    · nofun

/-- Settles O57: an error leaves OUTCOME = OK, and a nonzero compaction is shorter than its input. -/
theorem noShrinkNeverOccurs : Obligations.NoShrinkNeverOccurs := by
  intro i s t ht
  obtain ⟨t', ht', ⟨c, -, rfl⟩ | hc⟩ := exec_cases i s <;> cases ht.symm.trans ht'
  · nofun
  · exact hc.outcome_ne_noShrink

/-! ### DEINTERLEAVE (41_deinterleaver.md R181) -/

/-- The stored output holds DI(R, len), byte for byte. -/
theorem read_writeBytes_deinterleaved {m : Memory} (hm : m.wf) (R : Nat → Byte) (a : Nat) {len i : Nat} (hi : i < len) :
    (m.writeBytes a (deinterleaved R len)).read (a + i) = deinterleavedAt R len i := by
  have hin : i < (deinterleaved R len).length := (deinterleaved_length R len).symm ▸ hi
  rw [Memory.read_writeBytes_inside hm a _ i hin, deinterleaved_getElem]

theorem read_writeBytes_deinterleaved_outside (m : Memory) (R : Nat → Byte) {a len b : Nat} (h : b < a ∨ a + len ≤ b) :
    (m.writeBytes a (deinterleaved R len)).read b = m.read b :=
  Memory.read_writeBytes_outside m _ (by rwa [deinterleaved_length])

/-- Settles O53: the checks in their order, then DI of the source stored at dst. -/
theorem deinterleaveFillsTheDestination : Obligations.DeinterleaveFillsTheDestination := by
  intro s hm src dst n meet refused
  have hvalid {a : Nat} (h : a + n ≤ s.symMemSize) : ¬ ¬ RegionValid s.symMemSize a n := not_not.2 (.inr h)
  have hinvalid {a : Nat} (hn : n ≠ 0) (h : s.symMemSize < a + n) : ¬ RegionValid s.symMemSize a n :=
    not_or.2 ⟨hn, Nat.not_le.2 h⟩
  have hmeet : RegionOverlap src n dst n ↔ meet := and_self_left
  refine ⟨fun hn hsrc => if_pos (hinvalid hn hsrc), fun hn hsrc hdst => ?_, fun hsrc hdst hm' => ?_, fun hin hapart => ?_⟩
  · exact (if_neg (hvalid hsrc)).trans (if_pos (hinvalid hn hdst))
  · exact (if_neg (hvalid hsrc)).trans ((if_neg (hvalid hdst)).trans (if_pos (hmeet.2 hm')))
  · have hsrc : RegionValid s.symMemSize src n := hin.imp_right And.left
    have hdst : RegionValid s.symMemSize dst n := hin.imp_right And.right
    refine ⟨_, (if_neg (not_not.2 hsrc)).trans ((if_neg (not_not.2 hdst)).trans (if_neg (hmeet.not.2 hapart))), ?_,
      fun i hi => read_writeBytes_deinterleaved hm _ dst hi, fun a ha => read_writeBytes_deinterleaved_outside _ _ ha⟩
    rw [State.n, BitVec.ofNat_toNat, BitVec.setWidth_eq]
    rfl

/-! ### RESYNC_DEINTERLEAVE (41_deinterleaver.md R185) -/

/-- All checks passed: the destination is checked for MAXOUT(n) bytes before RESYNC_CORE runs. -/
structure ResyncDeinterleaveAllowed (s : State) : Prop where
  resync : ResyncAllowed s
  dstValid : RegionValid s.symMemSize s.dst (maxOut s.n)
  apart : ¬ RegionOverlap s.src s.n s.dst (maxOut s.n)

/-- The state after both stages: the compacted data R stands at src and DI(R, rp) at dst. -/
def State.resyncDeinterleaved (s : State) : State :=
  { s.resynchronized with
    mem := s.resynchronized.mem.writeBytes s.dst
      (deinterleaved (s.resynchronized.sym s.src) (72 * s.confirmedFrames.length)) }

theorem execResyncDeinterleave_of_allowed {s : State} (h : ResyncDeinterleaveAllowed s) :
    execResyncDeinterleave s =
      if s.confirmedFrames = [] then completeWith .noSync s.resynchronized else completeWith .ok s.resyncDeinterleaved := by
  rw [execResyncDeinterleave, if_neg h.resync.1, if_neg (not_not.2 h.resync.2), if_neg (not_not.2 h.dstValid),
    if_neg h.apart]
  simp only [compacted_length_eq_zero_iff]
  refine ite_congr rfl (fun _ => rfl) fun hne => ?_
  have hlt := compacted_length_lt (mt (compacted_length_eq_zero_iff s).1 hne)
  rw [if_neg (Nat.not_le.2 hlt), compacted_length_eq]
  rfl

/-- Without a confirmed frame RESYNC_CORE stores nothing. -/
theorem resynchronized_of_no_frames {s : State} (h : s.confirmedFrames = []) :
    s.resynchronized = { s with resultLen := 0, found := false } := by
  rw [State.resynchronized, List.length_eq_zero_iff.1 ((compacted_length_eq_zero_iff s).2 h)]
  rfl

/-- An allowed run that confirms a frame stores at src and at dst without overlap, since rp ≤ MAXOUT(n) ≤ n (R184). -/
theorem ResyncDeinterleaveAllowed.results_apart {s : State} (h : ResyncDeinterleaveAllowed s) :
    s.src + 72 * s.confirmedFrames.length ≤ s.dst ∨ s.dst + 72 * s.confirmedFrames.length ≤ s.src ∨
      s.confirmedFrames = [] := by
  have hle := compacted_length_le_maxOut s
  have hn := maxOut_le s.n
  have hapart := h.apart
  rw [compacted_length_eq] at hle
  rw [← List.length_eq_zero_iff]
  unfold RegionOverlap at hapart
  omega

/-- The de-interleaved output leaves the compacted data at src as it is. -/
theorem ResyncDeinterleaveAllowed.read_compacted {s : State} (h : ResyncDeinterleaveAllowed s) {i : Nat}
    (hi : i < 72 * s.confirmedFrames.length) :
    s.resyncDeinterleaved.mem.read (s.src + i) = s.resynchronized.mem.read (s.src + i) := by
  refine read_writeBytes_deinterleaved_outside _ _ ?_
  rcases h.results_apart with hle | hle | hnil
  · omega
  · omega
  · simp [hnil] at hi

/-- The destination after an allowed run holds DI of what stands at src. -/
theorem ResyncDeinterleaveAllowed.read_deinterleaved {s : State} (h : ResyncDeinterleaveAllowed s) (hm : s.mem.wf) {i : Nat}
    (hi : i < 72 * s.confirmedFrames.length) :
    s.resyncDeinterleaved.mem.read (s.dst + i) =
      if i + i % 36 * 73728 < 72 * s.confirmedFrames.length
      then s.resyncDeinterleaved.mem.read (s.src + (i + i % 36 * 73728)) else 0x00 := by
  have hm' : s.resynchronized.mem.wf := Memory.writeBytes_wf hm s.src s.compacted
  refine (read_writeBytes_deinterleaved hm' _ s.dst hi).trans (ite_congr rfl (fun hin => ?_) fun _ => rfl)
  exact (h.read_compacted hin).symm

/-- Settles O56: RESYNC_CORE compacts, and where it confirmed a frame, DI of the compacted data goes to dst. -/
theorem resyncDeinterleaveComposesTheTwo : Obligations.ResyncDeinterleaveComposesTheTwo := by
  intro s hm src dst n mo retry snap srcOk dstOk meet refused
  have hretry : s.retry = retry := retry_eq s
  have pass_retry (hne : retry ≠ 0) : s.retry ≠ 0 := hretry ▸ hne
  refine ⟨fun hzero => if_pos (hretry.trans hzero), fun hne hsrc => ?_, fun hne hsrc hdst => ?_,
    fun hne hsrc hdst hmeet => ?_, fun hne hsrc hdst hapart => ?_⟩
  · exact (if_neg (pass_retry hne)).trans (if_pos hsrc)
  · exact (if_neg (pass_retry hne)).trans ((if_neg (not_not.2 hsrc)).trans (if_pos hdst))
  · exact (if_neg (pass_retry hne)).trans
      ((if_neg (not_not.2 hsrc)).trans ((if_neg (not_not.2 hdst)).trans (if_pos hmeet)))
  have hallowed : ResyncDeinterleaveAllowed s := ⟨⟨pass_retry hne, hsrc⟩, hdst, hapart⟩
  have hrun := coarseRun_confirmedFrames hallowed.resync.1
  rw [acqDepth_eq, retry_eq, lookahead_eq] at hrun
  have hexec := execResyncDeinterleave_of_allowed hallowed
  by_cases hnil : s.confirmedFrames = []
  · rw [if_pos hnil, resynchronized_of_no_frames hnil] at hexec
    exact ⟨_, _, hrun, hexec, fun _ => rfl, fun hframes => absurd hnil hframes⟩
  · rw [if_neg hnil] at hexec
    refine ⟨_, _, hrun, hexec, fun hframes => absurd hframes hnil, fun _ => ⟨?_, fun k j hk hj => ?_, fun i hi => ?_,
      fun a hsrc hdst => ?_⟩⟩
    · rw [State.resyncDeinterleaved, resynchronized_eq, decide_eq_true hnil]
      rfl
    · exact (hallowed.read_compacted (by omega)).trans (read_resynchronized_inside hm hk hj)
    · exact hallowed.read_deinterleaved hm hi
    · exact (read_writeBytes_deinterleaved_outside _ _ hdst).trans (read_resynchronized_outside s hsrc)

/-! ### A clean stream (41_deinterleaver.md R187) -/

section CleanStream

variable {X : Nat → Byte} {N : Nat} (hclean : ∀ f, f < N → ShowsByte X (80 * f) (hardByte X 0))

include hclean

/-- From the f-th frame on, tracking confirms every frame at once, and ends with the buffer. -/
theorem tracking_clean (la count f : Nat) (hN : f + count = N) :
    Tracking X (80 * N) la (hardByte X 0) (80 * f) ((List.range' f count).map (80 * ·)) (80 * N) := by
  induction count generalizing f with
  | zero =>
    obtain rfl : f = N := hN
    exact .noRoom (by omega)
  | succ count ih =>
    have hshow : ShowsByte X (80 * f + 0 * 80) (hardByte X 0) := by simpa using hclean f (by omega)
    have hrest := ih (f + 1) (by omega)
    rw [Nat.mul_succ] at hrest
    exact .confirmed (Nat.zero_le la) (by omega) hshow nofun (by simpa using hrest)

/-- Offset 0 is tried first and qualifies, whatever the data (41_deinterleaver.md R187). -/
theorem firstQualifying_clean {depth : Nat} (hN : depth + 1 ≤ N) :
    FirstQualifying (fun i => X (0 + i)) (80 * N - 0) 80 depth ((depth + 1) * 80) 0 (hardByte X 0) := by
  simp only [Nat.zero_add]
  refine ⟨by omega, ⟨by omega, hclean 0 (by omega), fun k _ hk => ?_⟩, nofun⟩
  rw [Nat.zero_add, Nat.mul_comm]
  exact hclean k (by omega)

/-- A clean stream of more than `depth` frames is one sync run over all of them. -/
theorem coarseRun_clean {depth : Nat} (hN : depth + 1 ≤ N) (retry la : Nat) :
    CoarseRun X (80 * N) depth retry la 0 ((List.range N).map (80 * ·)) := by
  have hend : CoarseRun X (80 * N) depth retry la (80 * N) [] := .ends (by omega)
  rw [List.range_eq_range', ← List.append_nil (List.map ..)]
  exact .acquired (by omega) (firstQualifying_clean hclean hN) (tracking_clean hclean la N 0 (Nat.zero_add N)) hend

end CleanStream

/-- Settles O58: a clean stream's run is the only one, so its frames are those RESYNC_DEINTERLEAVE confirms. -/
theorem cleanStreamIsRecoveredWhole : Obligations.CleanStreamIsRecoveredWhole := by
  intro s N hm hcfg src dst hlen hsrc hdst hapart
  obtain ⟨-, -, -, -, hresult⟩ := resyncDeinterleaveComposesTheTwo s hm
  obtain ⟨fs, t, hrun, hexec, hnone, hsome⟩ :=
    hresult (by rw [hcfg]; decide) (by omega) (by omega) (by omega)
  rw [hcfg, hlen] at hrun
  refine ⟨fun hN hclean => ?_, fun hN => ?_⟩
  · have hshow (f : Nat) (hf : f < N) : ShowsByte (s.sym src) (80 * f) (hardByte (s.sym src) 0) := by
      rw [← hardByte_eq_iff_showsByte, hardByte_eq_iff]
      intro j hj
      rw [Nat.zero_add]
      exact hclean f j hf hj
    obtain rfl := hrun.unique (coarseRun_clean hshow (depth := 4) hN 3 128)
    have hne : (List.range N).map (80 * ·) ≠ [] := by
      rw [Ne, List.map_eq_nil_iff, List.range_eq_nil]
      omega
    obtain ⟨hframe, hdata, hout, -⟩ := hsome hne
    simp only [List.length_map, List.length_range, List.getElem_map, List.getElem_range] at hframe hdata hout
    exact ⟨t, hexec, hframe, fun f j => hdata f j, hout⟩
  · have hend : CoarseRun (s.sym src) (80 * N) 4 3 128 0 [] := .ends (by omega)
    rw [hexec, hnone (hrun.unique hend)]

end Sys2Proof.Machine

namespace Sys2Proof.Machine

/-! ### The ways the table commands end (42_sqrt_table.md R201, R202, R203) -/

section TableCommands

variable {s : State}

theorem execSqrtInit_of_uninit (h : s.tableState = .uninit) :
    execSqrtInit s = completeWith .ok { s with tableState := .ready } := if_neg (not_not.2 h)

theorem execSqrtInit_of_not_uninit (h : s.tableState ≠ .uninit) : execSqrtInit s = raise .tableLifecycle s := if_pos h

theorem execSqrtRelease_of_ready (h : s.tableState = .ready) :
    execSqrtRelease s = completeWith .ok { s with tableState := .released } := if_neg (not_not.2 h)

theorem execSqrtRelease_of_not_ready (h : s.tableState ≠ .ready) : execSqrtRelease s = raise .tableLifecycle s := if_pos h

theorem execSqrtLookup_of_not_ready (h : s.tableState ≠ .ready) : execSqrtLookup s = raise .tableNotReady s := if_pos h

theorem execSqrtLookup_of_out_of_range (h : s.tableState = .ready)
    (ha : s.sqrtOperand < -16384 ∨ 16384 < s.sqrtOperand) : execSqrtLookup s = raise .sqrtArgRange s := by
  rw [execSqrtLookup, if_neg (not_not.2 h)]
  exact if_pos ha

theorem execSqrtLookup_of_in_range (h : s.tableState = .ready) (hlo : -16384 ≤ s.sqrtOperand)
    (hhi : s.sqrtOperand ≤ 16384) :
    execSqrtLookup s = completeWith .ok { s with sqrtRes := BitVec.ofInt 32 (ssqrt s.sqrtOperand) } := by
  rw [execSqrtLookup, if_neg (not_not.2 h)]
  exact if_neg (not_or.2 ⟨Int.not_lt.2 hlo, Int.not_lt.2 hhi⟩)

end TableCommands

/-- Settles O30: each clause is one of the two ways SQRT_INIT ends. -/
theorem sqrtInitBuildsTheTable : Obligations.SqrtInitBuildsTheTable := fun _ =>
  ⟨execSqrtInit_of_uninit, execSqrtInit_of_not_uninit⟩

/-- Settles O31: each clause is one of the two ways SQRT_RELEASE ends. -/
theorem sqrtReleaseReleasesTheTable : Obligations.SqrtReleaseReleasesTheTable := fun _ =>
  ⟨execSqrtRelease_of_ready, execSqrtRelease_of_not_ready⟩

/-! ### The sign-preserving root (42_sqrt_table.md R200, R205) -/

/-- `ssqrt` with the sign test written as R200 writes it. -/
theorem ssqrt_eq_ite_neg (a : Int) : ssqrt a = if a < 0 then -(isqrt a.natAbs : Int) else isqrt a.natAbs := by
  split
  · exact ssqrt_of_neg ‹_›
  · exact ssqrt_of_nonneg (Int.not_lt.1 ‹_›)

/-- Settles O32: each clause is one of the three ways SQRT_LOOKUP ends, and the root of the magnitude is `isqrt`'s. -/
theorem sqrtLookupWritesTheSignedRoot : Obligations.SqrtLookupWritesTheSignedRoot := by
  intro s a refused
  refine ⟨execSqrtLookup_of_not_ready, execSqrtLookup_of_out_of_range, fun h hlo hhi => ?_⟩
  obtain ⟨hsq, hnext⟩ := isqrt_spec a.natAbs
  refine ⟨isqrt a.natAbs, hsq, hnext, ?_⟩
  rw [← ssqrt_eq_ite_neg]
  exact execSqrtLookup_of_in_range h hlo hhi

/-- The root of a perfect square is exact. -/
theorem ssqrt_sq (r : Nat) : ssqrt (r * r) = r := by
  rw [ssqrt_of_nonneg (by positivity), ← Nat.cast_mul, Int.natAbs_natCast, isqrt_unique le_rfl (by nlinarith)]

theorem ssqrt_nonneg {a : Int} (h : 0 ≤ a) : 0 ≤ ssqrt a := ssqrt_of_nonneg h ▸ Int.natCast_nonneg _

theorem ssqrt_nonpos {a : Int} (h : a ≤ 0) : ssqrt a ≤ 0 := by
  rw [← Int.neg_nonneg, ← ssqrt_neg]
  exact ssqrt_nonneg (Int.neg_nonneg.2 h)

theorem ssqrt_mono_of_nonneg {a b : Int} (ha : 0 ≤ a) (hab : a ≤ b) : ssqrt a ≤ ssqrt b := by
  rw [ssqrt_of_nonneg ha, ssqrt_of_nonneg (ha.trans hab), Int.ofNat_le]
  exact isqrt_mono (by omega)

/-- Negative arguments are the mirror image of nonnegative ones, and 0 separates the two. -/
theorem ssqrt_mono : Monotone ssqrt := by
  intro a b hab
  rcases le_total 0 a with ha | ha
  · exact ssqrt_mono_of_nonneg ha hab
  rcases le_total 0 b with hb | hb
  · exact (ssqrt_nonpos ha).trans (ssqrt_nonneg hb)
  · have hmirror := ssqrt_mono_of_nonneg (Int.neg_nonneg.2 hb) (Int.neg_le_neg hab)
    rwa [ssqrt_neg, ssqrt_neg, Int.neg_le_neg_iff] at hmirror

theorem ssqrt_16384 : ssqrt 16384 = 128 := ssqrt_sq 128

theorem ssqrt_bounds {a : Int} (hlo : -16384 ≤ a) (hhi : a ≤ 16384) : -128 ≤ ssqrt a ∧ ssqrt a ≤ 128 := by
  rw [← ssqrt_16384, ← ssqrt_neg]
  exact ⟨ssqrt_mono hlo, ssqrt_mono hhi⟩

/-- The root is truncated: its square does not exceed the argument, and the next square does. -/
theorem ssqrt_truncates {a : Int} (h : 0 ≤ a) : ssqrt a * ssqrt a ≤ a ∧ a < (ssqrt a + 1) * (ssqrt a + 1) := by
  obtain ⟨n, rfl⟩ := Int.eq_ofNat_of_zero_le h
  rw [ssqrt_of_nonneg h, Int.natAbs_natCast]
  exact_mod_cast isqrt_spec n

/-- Only the last argument of the table's range has the root 128. -/
theorem eq_of_ssqrt_eq_128 {a : Int} (hhi : a ≤ 16384) (h : ssqrt a = 128) : a = 16384 := by
  have ha : 0 ≤ a := by
    by_contra hneg
    have := ssqrt_nonpos (a := a) (by omega)
    omega
  obtain ⟨hsq, -⟩ := ssqrt_truncates ha
  rw [h] at hsq
  omega

/-- Settles O33: each property is a lemma above, most of them without the range. -/
theorem ssqrtHasTheStatedProperties : Obligations.SsqrtHasTheStatedProperties :=
  ⟨ssqrt_zero, ssqrt_16384, (ssqrt_neg 9).trans (congrArg _ (ssqrt_sq 3)), fun _ _ _ hab _ => ssqrt_mono hab,
    fun a _ _ => ssqrt_neg a, fun _ => ssqrt_bounds, fun _ _ => eq_of_ssqrt_eq_128, fun _ h _ => ssqrt_truncates h⟩

/-! ### What a step does to TABLE_STATE (42_sqrt_table.md R204) -/

/-- Of the commands that complete only SQRT_INIT and SQRT_RELEASE move TABLE_STATE, each from its own start. -/
theorem Completes.tableState {i : Instr} {s t : State} (hc : Completes i s t) :
    t.tableState = s.tableState ∨
      (s.tableState = .uninit ∧ t.tableState = .ready ∧ i = .sqrtInit) ∨
      (s.tableState = .ready ∧ t.tableState = .released ∧ i = .sqrtRelease) := by
  by_cases hi : i ∈ [.sqrtInit, .sqrtRelease]
  · simp only [List.mem_cons, List.not_mem_nil, or_false] at hi
    obtain rfl | rfl := hi <;> obtain ⟨hs, rfl⟩ := hc
    · exact .inr (.inl ⟨hs, rfl, rfl⟩)
    · exact .inr (.inr ⟨hs, rfl, rfl⟩)
  · obtain ⟨-, -, -, -, -, -, htable, -⟩ := hc.ends
    exact .inl (htable hi)

/-- The engine moves TABLE_STATE only along R204's two arrows, each for its own command word. -/
theorem engineStep_tableState {s t : State} {w : Word} (hw : s.pending = some w) (ht : engineStep s = .next t) :
    t.tableState = s.tableState ∨
      (s.tableState = .uninit ∧ t.tableState = .ready ∧ w = encode .sqrtInit) ∨
      (s.tableState = .ready ∧ t.tableState = .released ∧ w = encode .sqrtRelease) := by
  obtain ⟨t', ht', ⟨c, -, rfl⟩ | ⟨i, hd, hc⟩⟩ := engineStep_cases s w hw <;> cases ht.symm.trans ht'
  · exact .inl rfl
  · obtain rfl := (encodedWordIsTheOnlyOneDecoded i w).1 hd
    refine hc.tableState.imp_right (Or.imp ?_ ?_) <;> exact fun ⟨hs, hmove, hi⟩ => ⟨hs, hmove, congrArg encode hi⟩

theorem writeOffset_tableState (s : State) (off : BitVec 8) (v : Word) : (s.writeOffset off v).tableState = s.tableState := by
  unfold State.writeOffset
  split
  · rename_i r _
    cases r <;> rfl
  · rfl

/-- Every host transaction but the reset input keeps TABLE_STATE on each of its branches. -/
theorem hostStep_tableState {s : State} {op : HostOp} {rest : List HostOp} (hp : s.hostProgram = op :: rest)
    (hop : op ≠ .reset) : s.hostStep.tableState = s.tableState := by
  rw [State.hostStep, hp]
  cases op with
  | regRead off w => simp [State.hostRegRead, apply_ite State.tableState]
  | regWrite off w v => simp [State.hostRegWrite, apply_ite State.tableState, writeOffset_tableState]
  | symRead a w => simp [State.hostSymRead, apply_ite State.tableState]
  | symWrite a w v => simp [State.hostSymWrite, apply_ite State.tableState]
  | poll => simp [State.hostPoll, apply_ite State.tableState]
  | reset => exact absurd rfl hop

theorem hostStep_reset_tableState {s : State} {rest : List HostOp} (hp : s.hostProgram = .reset :: rest) :
    s.hostStep.tableState = .uninit := by
  rw [State.hostStep, hp]
  rfl

/-- Settles O34: idle steps and host transactions other than the reset entry keep TABLE_STATE, and the engine follows the two
arrows. -/
theorem tableLifecycleIsOneWay : Obligations.TableLifecycleIsOneWay := by
  constructor
  · intro s t hstep
    obtain ⟨-, ⟨-, rfl⟩ | ⟨hm, rfl⟩ | ⟨hm, ht⟩⟩ := step_cases hstep
    · exact .inl rfl
    · obtain ⟨op, rest, hp⟩ := program_of_mover_host hm
      by_cases hop : op = .reset
      · subst hop
        exact .inr (.inr (.inr ⟨hostStep_reset_tableState (s := s.takeTurn) hp, hm, rest, hp⟩))
      · exact .inl (hostStep_tableState (s := s.takeTurn) hp hop)
    · obtain ⟨w, hw⟩ := pending_of_mover_engine hm
      rw [hw]
      obtain hkeep | ⟨hs, hmove, rfl⟩ | ⟨hs, hmove, rfl⟩ := engineStep_tableState (s := s.takeTurn) hw ht
      · exact .inl hkeep
      · exact .inr (.inl ⟨hs, hmove, rfl⟩)
      · exact .inr (.inr (.inl ⟨hs, hmove, rfl⟩))
  · rintro i s (⟨rfl, h⟩ | ⟨rfl, h⟩)
    · exact ⟨_, execSqrtInit_of_not_uninit h, rfl, rfl, rfl⟩
    · exact ⟨_, execSqrtRelease_of_not_ready h, rfl, rfl, rfl⟩

end Sys2Proof.Machine

namespace Sys2Proof.Machine

/-! ### Decoding a region (43_differential.md R220, R223) -/

/-- Decoding the `n` bytes at `a`, from and to a memory with its previous raw pair. -/
def diffRegion (sat : Bool) (p : Memory × Byte × Byte) (a n : Nat) : Memory × Byte × Byte :=
  (p.1.writeBytes a (diffBytes sat p.2.1 p.2.2 (p.1.readBytes a n)), diffCarry p.2.1 p.2.2 (p.1.readBytes a n))

/-- After whole pairs, decoding goes on from the pair carried out. -/
theorem diffBytes_append (sat : Bool) (pi pq : Byte) {raw : List Byte} (h : raw.length % 2 = 0) (later : List Byte) :
    diffBytes sat pi pq (raw ++ later) =
      diffBytes sat pi pq raw ++ diffBytes sat (diffCarry pi pq raw).1 (diffCarry pi pq raw).2 later := by
  induction raw using List.twoStepInduction generalizing pi pq with
  | nil => rfl
  | singleton a => nomatch h
  | cons_cons a b raw ih _ =>
    have heven : raw.length % 2 = 0 := (Nat.add_mod_right ..).symm.trans h
    exact congrArg (_ :: _ :: ·) (ih a b heven)

theorem diffCarry_append (pi pq : Byte) {raw : List Byte} (h : raw.length % 2 = 0) (later : List Byte) :
    diffCarry pi pq (raw ++ later) = diffCarry (diffCarry pi pq raw).1 (diffCarry pi pq raw).2 later := by
  induction raw using List.twoStepInduction generalizing pi pq with
  | nil => rfl
  | singleton a => nomatch h
  | cons_cons a b raw ih _ =>
    have heven : raw.length % 2 = 0 := (Nat.add_mod_right ..).symm.trans h
    exact ih a b heven

/-- The last raw pair is carried out. -/
theorem diffCarry_readBytes (pi pq : Byte) (m : Memory) (a : Nat) {n : Nat} (hn : 2 ≤ n) (heven : n % 2 = 0) :
    diffCarry pi pq (m.readBytes a n) = (m.read (a + (n - 2)), m.read (a + (n - 1))) := by
  obtain ⟨k, rfl⟩ := Nat.exists_eq_add_of_le' hn
  rw [Memory.readBytes_append, diffCarry_append _ _ (by rw [Memory.readBytes_length]; omega)]
  rfl

section DiffRegion

variable {sat : Bool} {p : Memory × Byte × Byte} {a n : Nat}

theorem read_diffRegion_outside {b : Nat} (h : b < a ∨ a + n ≤ b) : (diffRegion sat p a n).1.read b = p.1.read b := by
  have hlen := diffBytes_readBytes_length_le sat p.2.1 p.2.2 p.1 a n
  exact Memory.read_writeBytes_outside p.1 _ (by omega)

/-- Decoding a region is decoding its first pairs, then the rest from the pair carried out: the rest's raw bytes still
stand (20_memory.md R100). -/
theorem diffRegion_add {i : Nat} (hi : i % 2 = 0) (j : Nat) :
    diffRegion sat p a (i + j) = diffRegion sat (diffRegion sat p a i) (a + i) j := by
  have heven : (p.1.readBytes a i).length % 2 = 0 := by rwa [Memory.readBytes_length]
  have hlen : (diffBytes sat p.2.1 p.2.2 (p.1.readBytes a i)).length = i := by
    rw [diffBytes_length, Memory.readBytes_length]
    omega
  have hraw : (diffRegion sat p a i).1.readBytes (a + i) j = p.1.readBytes (a + i) j :=
    Memory.readBytes_congr fun _ _ => read_diffRegion_outside (.inr (Nat.le_add_right ..))
  rw [diffRegion.eq_def _ (diffRegion ..), hraw, diffRegion, Memory.readBytes_append, diffBytes_append _ _ _ heven,
    diffCarry_append _ _ heven, Memory.writeBytes_append, hlen]
  rfl

theorem diffRegion_snd (hn : 2 ≤ n) (heven : n % 2 = 0) :
    (diffRegion sat p a n).2 = (p.1.read (a + (n - 2)), p.1.read (a + (n - 1))) := diffCarry_readBytes _ _ _ _ hn heven

theorem diffRegion_two : diffRegion sat p a 2 =
    ((p.1.write a (diffOutI sat (p.1.read a) p.2.1)).write (a + 1) (diffOutQ sat (p.1.read (a + 1)) p.2.2),
      p.1.read a, p.1.read (a + 1)) := rfl

/-- The region's first pair is decoded against the given pair, and not written again. -/
theorem read_diffRegion_head (hm : p.1.wf) (r : Nat) :
    (diffRegion sat p a (2 + r)).1.read a = diffOutI sat (p.1.read a) p.2.1 ∧
      (diffRegion sat p a (2 + r)).1.read (a + 1) = diffOutQ sat (p.1.read (a + 1)) p.2.2 := by
  rw [diffRegion_add (by decide), diffRegion_two]
  constructor <;> rw [read_diffRegion_outside (.inl (by omega))]
  · exact (Memory.read_write_other _ _ (by omega)).trans (Memory.read_write_same hm ..)
  · exact Memory.read_write_same (Memory.write_wf hm ..) ..

/-- Pair j is decoded against the raw pair before it. -/
theorem read_diffRegion_pair (hm : p.1.wf) (heven : n % 2 = 0) {j : Nat} (hj : 2 * j < n) :
    (diffRegion sat p a n).1.read (a + 2 * j) =
        diffOutI sat (p.1.read (a + 2 * j)) (diffCarry p.2.1 p.2.2 (p.1.readBytes a (2 * j))).1 ∧
      (diffRegion sat p a n).1.read (a + (2 * j + 1)) =
        diffOutQ sat (p.1.read (a + (2 * j + 1))) (diffCarry p.2.1 p.2.2 (p.1.readBytes a (2 * j))).2 := by
  obtain ⟨r, rfl⟩ : ∃ r, n = 2 * j + (2 + r) := ⟨n - (2 * j + 2), by omega⟩
  have hraw {b : Nat} (hb : a + 2 * j ≤ b) : (diffRegion sat p a (2 * j)).1.read b = p.1.read b :=
    read_diffRegion_outside (.inr hb)
  have hhead := read_diffRegion_head (sat := sat) (p := diffRegion sat p a (2 * j)) (a := a + 2 * j)
    (Memory.writeBytes_wf hm ..) r
  rwa [hraw le_rfl, hraw (Nat.le_add_right ..), ← diffRegion_add (Nat.mul_mod_right 2 j)] at hhead

/-- The loop in place decodes the region: each turn is the region's first pair. -/
theorem diffInPlace_eq_diffRegion (k : Nat) :
    diffInPlace sat k p.1 p.2.1 p.2.2 a = diffRegion sat p a (2 * k) := by
  induction k generalizing p a with
  | zero => rfl
  | succ k ih =>
    rw [Nat.mul_succ, Nat.add_comm (2 * k), diffRegion_add (by decide), ← ih]
    rfl

end DiffRegion

/-! ### The ways DIFF_DECODE ends (43_differential.md R220, R221) -/

/-- The memory and the previous raw pair that DIFF_DECODE starts from. -/
def State.diffStart (s : State) : Memory × Byte × Byte := (s.mem, s.diffPrevI, s.diffPrevQ)

/-- The registers that DIFF_DECODE writes before it completes. -/
def State.setDiff (s : State) (p : Memory × Byte × Byte) : State :=
  { s with mem := p.1, diffPrevI := p.2.1, diffPrevQ := p.2.2 }

section DiffDecode

variable {s : State}

theorem execDiffDecode_of_not_ready (h : s.tableState ≠ .ready) : execDiffDecode s = raise .tableNotReady s := if_pos h

theorem execDiffDecode_of_bad_length (h : s.tableState = .ready) (hn : s.n < 2 ∨ s.n % 2 ≠ 0) :
    execDiffDecode s = raise .badLength s := by
  rw [execDiffDecode, if_neg (not_not.2 h), if_pos hn]

theorem execDiffDecode_of_out_of_range (h : s.tableState = .ready) (hn : 2 ≤ s.n) (heven : s.n % 2 = 0)
    (hout : s.symMemSize < s.src + s.n) : execDiffDecode s = raise .range s := by
  rw [execDiffDecode, if_neg (not_not.2 h), if_neg (by omega), if_pos (by omega)]

/-- All checks passed, for the operands `a` and `n`. -/
theorem execDiffDecode_of_region {a n : Nat} (ha : s.src = a) (hlen : s.n = n) (h : s.tableState = .ready) (hn : 2 ≤ n)
    (heven : n % 2 = 0) (hin : a + n ≤ s.symMemSize) :
    execDiffDecode s = completeWith .ok (s.setDiff (diffRegion s.ctrlDiffSat s.diffStart a n)) := by
  subst ha hlen
  rw [execDiffDecode, if_neg (not_not.2 h), if_neg (by omega), if_neg (by omega)]
  rfl

/-- The only error codes DIFF_DECODE raises are those of its three checks. -/
theorem execDiffDecode_errCode {t : State} (h : execDiffDecode s = .next t) :
    t.errCode = s.errCode ∨ t.errCode ∈ [.tableNotReady, .badLength, .range] := by
  unfold execDiffDecode at h
  split_ifs at h <;> cases h
  exacts [.inr (by simp), .inr (by simp), .inl rfl, .inr (by simp)]

end DiffDecode

/-- Settles O35: the clauses are the four ways DIFF_DECODE ends, and the pair before pair j is the one carried out of the
first j. -/
theorem diffDecodeDecodesEveryPair : Obligations.DiffDecodeDecodesEveryPair := by
  intro s hm src n raw pi pq store refused
  refine ⟨execDiffDecode_of_not_ready, execDiffDecode_of_bad_length, execDiffDecode_of_out_of_range,
    fun hready hn heven hin => ⟨_, execDiffDecode_of_region (a := src) (n := n) rfl rfl hready hn heven hin, ?_,
      fun j hj => ?_, fun b hb => read_diffRegion_outside hb⟩⟩
  · rw [State.setDiff, diffRegion_snd hn heven]
    rfl
  · have hpair := read_diffRegion_pair (sat := s.ctrlDiffSat) (p := s.diffStart) (a := src) hm heven hj
    cases j with
    | zero => exact hpair
    | succ j =>
      rw [diffCarry_readBytes _ _ _ _ (by omega) (by omega)] at hpair
      exact hpair

/-- Settles O40: the loop decodes the n/2 pairs of the region. -/
theorem diffLoopInPlaceGivesTheSame : Obligations.DiffLoopInPlaceGivesTheSame := by
  intro s _ hready hn heven hin
  refine ⟨_, execDiffDecode_of_region rfl rfl hready hn heven hin, ?_⟩
  have hloop := diffInPlace_eq_diffRegion (sat := s.ctrlDiffSat) (p := s.diffStart) (a := s.src)
    (s.srcLen.toNat / 2)
  rwa [Nat.mul_div_cancel' (Nat.dvd_of_mod_eq_zero heven)] at hloop

/-- Settles O38: the second command starts from what the first one left. -/
theorem chunkedDecodingEqualsWholeDecoding : Obligations.ChunkedDecodingEqualsWholeDecoding := by
  intro s n1 n2 _ hsize hready hn1 heven1 hn2 heven2 hlen hin
  have hword := s.srcLen.isLt
  have hlen1 : (BitVec.ofNat 32 n1).toNat = n1 := Nat.mod_eq_of_lt (by omega)
  have hlen2 : (BitVec.ofNat 32 n2).toNat = n2 := Nat.mod_eq_of_lt (by omega)
  have hbase2 : (BitVec.ofNat 32 (s.srcBase.toNat + n1)).toNat = s.srcBase.toNat + n1 := Nat.mod_eq_of_lt (by omega)
  have hsplit := diffRegion_add (sat := s.ctrlDiffSat) (p := s.diffStart) (a := s.src) heven1 n2
  have hcarry := diffRegion_snd (sat := s.ctrlDiffSat) (p := s.diffStart) (a := s.src) hn1 heven1
  refine ⟨_, _, _, execDiffDecode_of_region rfl hlen hready (by omega) (by omega) hin,
    execDiffDecode_of_region rfl hlen1 hready hn1 heven1 (show s.src + n1 ≤ s.symMemSize by rw [State.src]; omega),
    execDiffDecode_of_region hbase2 hlen2 hready hn2 heven2
      (show s.srcBase.toNat + n1 + n2 ≤ s.symMemSize by omega),
    congrArg Prod.fst hcarry, congrArg Prod.snd hcarry, ?_, ?_, ?_⟩
  · exact congrArg (·.1) hsplit.symm
  · exact congrArg (·.2.1) hsplit.symm
  · exact congrArg (·.2.2) hsplit.symm

/-! ### Products of symbol bytes and their stored roots (43_differential.md R221, R222, R224) -/

theorem byte_toInt_bounds (b : Byte) : -128 ≤ b.toInt ∧ b.toInt ≤ 127 :=
  ⟨b.le_toInt, Int.le_of_lt_add_one b.toInt_lt⟩

theorem byte_toInt_eq_neg_128_iff (b : Byte) : b.toInt = -128 ↔ b = 0x80 :=
  ⟨fun h => BitVec.eq_of_toInt_eq h, fun h => h ▸ rfl⟩

/-- The product of two symbol bytes, from the four products of their distances to the ends of the range. -/
theorem byte_mul_bounds (a p : Byte) :
    -16256 ≤ a.toInt * p.toInt ∧ a.toInt * p.toInt ≤ 16384 ∧
      (a.toInt * p.toInt = 16384 ↔ a.toInt = -128 ∧ p.toInt = -128) := by
  obtain ⟨ha, ha'⟩ := byte_toInt_bounds a
  obtain ⟨hp, hp'⟩ := byte_toInt_bounds p
  generalize a.toInt = x at *
  generalize p.toInt = y at *
  have hll := Int.mul_nonneg (Int.sub_nonneg.2 ha) (Int.sub_nonneg.2 hp)
  have hlh := Int.mul_nonneg (Int.sub_nonneg.2 ha) (Int.sub_nonneg.2 hp')
  have hhl := Int.mul_nonneg (Int.sub_nonneg.2 ha') (Int.sub_nonneg.2 hp)
  have hhh := Int.mul_nonneg (Int.sub_nonneg.2 ha') (Int.sub_nonneg.2 hp')
  ring_nf at hll hlh hhl hhh
  refine ⟨by omega, by omega, fun h => by omega, ?_⟩
  rintro ⟨rfl, rfl⟩
  rfl

/-- Settles O36: DIFF_DECODE's own error codes do not include SQRT_ARG_RANGE. -/
theorem diffProductsStayInTheTable : Obligations.DiffProductsStayInTheTable := by
  refine ⟨fun a p => ?_, fun s t ht hs => ?_⟩
  · obtain ⟨hlo, hhi, hend⟩ := byte_mul_bounds a p
    exact ⟨hlo, hhi, hend, by omega, by omega, neg_inj.trans hend⟩
  · rcases execDiffDecode_errCode ht with hkeep | hraised
    · rwa [hkeep]
    · intro h
      rw [h] at hraised
      exact absurd hraised (by decide)

theorem ssqrt_byte_mul_bounds (a p : Byte) : -128 ≤ ssqrt (a.toInt * p.toInt) ∧ ssqrt (a.toInt * p.toInt) ≤ 128 := by
  obtain ⟨hlo, hhi, -⟩ := byte_mul_bounds a p
  exact ssqrt_bounds (by omega) hhi

theorem ssqrt_byte_mul_eq_128_iff (a p : Byte) :
    ssqrt (a.toInt * p.toInt) = 128 ↔ a.toInt = -128 ∧ p.toInt = -128 := by
  obtain ⟨-, hhi, hend⟩ := byte_mul_bounds a p
  rw [← hend]
  exact ⟨eq_of_ssqrt_eq_128 hhi, fun h => h ▸ ssqrt_16384⟩

/-- The inverted product stays below 16384, so its root stays below 128. -/
theorem ssqrt_neg_byte_mul_bounds (b q : Byte) :
    -128 ≤ ssqrt (-(b.toInt * q.toInt)) ∧ ssqrt (-(b.toInt * q.toInt)) ≤ 127 := by
  obtain ⟨hlo, hhi, -⟩ := byte_mul_bounds b q
  obtain ⟨hroot, hroot'⟩ := ssqrt_bounds (a := -(b.toInt * q.toInt)) (by omega) (by omega)
  have hne := mt (eq_of_ssqrt_eq_128 (a := -(b.toInt * q.toInt)) (by omega)) (by omega)
  exact ⟨hroot, by omega⟩

theorem diffStore_of_ne {v : Int} (h : v ≠ 128) (sat : Bool) : diffStore v sat = BitVec.ofInt 8 v :=
  if_neg fun h' => h h'.1

theorem diffOutQ_eq (sat : Bool) (b q : Byte) : diffOutQ sat b q = BitVec.ofInt 8 (ssqrt (-(b.toInt * q.toInt))) := by
  obtain ⟨-, hhi⟩ := ssqrt_neg_byte_mul_bounds b q
  exact diffStore_of_ne (v := ssqrt (-(b.toInt * q.toInt))) (by omega) sat

/-- Settles O37: only −128 times −128 has the root +128. -/
theorem diffStoresPlus128AsSelected : Obligations.DiffStoresPlus128AsSelected := by
  refine ⟨fun a p => ?_, ssqrt_neg_byte_mul_bounds, by decide, by decide, fun sat a p h => ?_, diffOutQ_eq⟩
  · obtain ⟨hlo, hhi⟩ := ssqrt_byte_mul_bounds a p
    exact ⟨hlo, hhi, ssqrt_byte_mul_eq_128_iff a p⟩
  · refine diffStore_of_ne (mt (ssqrt_byte_mul_eq_128_iff a p).1 ?_) sat
    rwa [byte_toInt_eq_neg_128_iff, byte_toInt_eq_neg_128_iff]

theorem ssqrt_pos {a : Int} (h : 0 < a) : 0 < ssqrt a :=
  Int.lt_of_lt_of_le (show 0 < ssqrt 1 by decide) (ssqrt_mono h)

/-- The root keeps its argument's sign (42_sqrt_table.md R200). -/
theorem sign_ssqrt (a : Int) : (ssqrt a).sign = a.sign := by
  rcases lt_trichotomy a 0 with h | rfl | h
  · have hpos := ssqrt_pos (Int.neg_pos_of_neg h)
    rw [ssqrt_neg] at hpos
    rw [Int.sign_eq_neg_one_of_neg h, Int.sign_eq_neg_one_of_neg (Int.neg_of_neg_pos hpos)]
  · rw [ssqrt_zero]
  · rw [Int.sign_eq_one_of_pos h, Int.sign_eq_one_of_pos (ssqrt_pos h)]

/-- The root's magnitude is the truncated root of the argument's magnitude. -/
theorem natAbs_ssqrt_truncates (a : Int) :
    (ssqrt a).natAbs * (ssqrt a).natAbs ≤ a.natAbs ∧ a.natAbs < ((ssqrt a).natAbs + 1) * ((ssqrt a).natAbs + 1) := by
  rw [natAbs_ssqrt]
  exact isqrt_spec a.natAbs

theorem byte_ofInt_toInt {v : Int} (hlo : -128 ≤ v) (hhi : v ≤ 127) : (BitVec.ofInt 8 v).toInt = v :=
  BitVec.toInt_ofInt_eq_self (by decide) hlo (Int.lt_add_one_of_le hhi)

/-- Settles O39: the root keeps the product's sign, and a root inside a signed byte is stored as it is. -/
theorem decodedSignsFollowTheSignLaw : Obligations.DecodedSignsFollowTheSignLaw := by
  intro sat a p b q vi vq
  obtain ⟨hi, hi'⟩ := natAbs_ssqrt_truncates (a.toInt * p.toInt)
  obtain ⟨hq, hq'⟩ := natAbs_ssqrt_truncates (-(b.toInt * q.toInt))
  rw [Int.natAbs_mul] at hi hi'
  rw [Int.natAbs_neg, Int.natAbs_mul] at hq hq'
  refine ⟨?_, ?_, hi, hi', hq, hq', fun hne => ?_, ?_⟩
  · rw [sign_ssqrt, Int.sign_mul]
  · rw [sign_ssqrt, Int.sign_neg, Int.sign_mul]
  · obtain ⟨hlo, hhi⟩ := ssqrt_byte_mul_bounds a p
    exact (congrArg BitVec.toInt (diffStore_of_ne hne sat)).trans (byte_ofInt_toInt hlo (by omega))
  · obtain ⟨hlo, hhi⟩ := ssqrt_neg_byte_mul_bounds b q
    rw [diffOutQ_eq, byte_ofInt_toInt hlo hhi]

end Sys2Proof.Machine

namespace Sys2Proof.Machine

/-! ### The launch and the engine's step (44_host_interface.md R244, R245, R246) -/

theorem engineStep_of_command {s : State} {w : Word} {i : Instr} (hw : s.pending = some w)
    (hd : decode w = .command i) : engineStep s = exec i s := by
  simp only [engineStep, hw, hd]

/-- Settles O5: the turn uses up the schedule's entry, and the engine's step is the decoded command's. -/
theorem engineTurnRunsThePendingCommand : Obligations.EngineTurnRunsThePendingCommand := by
  intro s w i hf hw hm hd
  rw [step_of_mover_engine hf hm, takeTurn_of_busy hw]
  exact engineStep_of_command hw hd

/-- LAST_OP after the launch of a command is its opcode. -/
theorem launch_encode (s : State) (i : Instr) : s.launch (encode i) =
    { s with
      lastOp := i.opcode, pending := some (encode i), done := false, found := false, err := false, errCode := .noError,
      outcome := .ok } := by
  obtain ⟨-, hop, -⟩ := encodedWord i
  rw [← hop]
  rfl

/-- Settles O6: the engine runs the command that the launched word encodes. -/
theorem launchedCommandRunsNext : Obligations.LaunchedCommandRunsNext := by
  intro s i hf
  rw [step_withFetchWord hf, engineStep_of_command rfl (decode_encode i), launch_encode]

/-- Settles O29: NOP completes on the state its launch leaves. -/
theorem nopOnlyCompletes : Obligations.NopOnlyCompletes :=
  fun s => ⟨rfl, launchedCommandRunsNext s .nop⟩

/-- Settles O7: a write to CMD while idle is the launch. -/
theorem cmdWriteLaunches : Obligations.CmdWriteLaunches :=
  fun _ _ _ hf hi hp => step_regWrite_of_idle hf hi rfl hp

/-! ### A step always exists (44_host_interface.md R246, R248) -/

theorem step_of_hostFault {s : State} (hf : s.hostFault = true) : step s = .fault .hostProtocol := if_pos hf

/-- Settles O9, by who moves: nobody, the host, or the engine, whose step ends in an error or completes. -/
theorem stepStopsOnlyOnHostFault : Obligations.StepStopsOnlyOnHostFault := by
  refine fun s => ⟨fun hf => ?_, step_of_hostFault⟩
  cases hm : s.mover with
  | none => exact ⟨s, step_of_mover_none hf hm⟩
  | some agent =>
    cases agent with
    | host => exact ⟨_, step_of_mover_host hf hm⟩
    | engine =>
      obtain ⟨w, hw⟩ := pending_of_mover_engine hm
      obtain ⟨t, ht, -⟩ := engineStep_cases s.takeTurn w hw
      exact ⟨t, (step_of_mover_engine hf hm).trans ht⟩

/-! ### What a register read returns (10_state.md R32 to R51; 44_host_interface.md R240) -/

/-- CTRL as the host reads it: DIFF_SAT in bit 0 (10_state.md R36). -/
theorem ctrlWord_eq_ite (b : Bool) : (0 : BitVec 31) ++ BitVec.ofBool b = if b then (1 : Word) else 0 := by
  cases b <;> rfl

/-- SYNC_BYTE as the host reads it (10_state.md R45). -/
theorem syncByteWord_eq (b : Byte) : (0 : BitVec 24) ++ b = BitVec.ofNat 32 b.toNat := by
  have zero : (0 : BitVec 24).toNat = 0 := rfl
  refine BitVec.eq_of_toNat_eq ?_
  rw [toNat_append_eq, BitVec.toNat_ofNat, zero]
  omega

/-- DIFF_PREV as the host reads it: PREV_Q above PREV_I (10_state.md R47). -/
theorem diffPrevWord_eq (q i : Byte) :
    (0 : BitVec 16) ++ q ++ i = BitVec.ofNat 32 (256 * q.toNat + i.toNat) := by
  have zero : (0 : BitVec 16).toNat = 0 := rfl
  refine BitVec.eq_of_toNat_eq ?_
  rw [toNat_append_eq, toNat_append_eq, BitVec.toNat_ofNat, zero]
  omega

theorem offset_aligned (r : Reg) : r.offset.toNat % 4 = 0 := by cases r <;> rfl

theorem readOffset_offset (s : State) (r : Reg) : s.readOffset r.offset = s.readReg r := by cases r <;> rfl

theorem writeOffset_offset (s : State) (v : Word) (r : Reg) : s.writeOffset r.offset v = s.writeReg v r := by
  cases r <;> rfl

/-- R32's sixteen offsets, each with the value a read returns. -/
def registerMap (s : State) : List (BitVec 8 × Word) :=
  [(0x00, 0), (0x04, s.statusWord), (0x08, if s.ctrlDiffSat then 1 else 0), (0x0C, s.srcBase), (0x10, s.srcLen),
    (0x14, s.dstBase), (0x18, s.locStride), (0x1C, s.locDepth), (0x20, s.locWindow), (0x24, s.resyncCfg),
    (0x28, s.syncOffset), (0x2C, BitVec.ofNat 32 s.syncByte.toNat), (0x30, s.resultLen),
    (0x34, BitVec.ofNat 32 (256 * s.diffPrevQ.toNat + s.diffPrevI.toNat)), (0x38, s.sqrtArg), (0x3C, s.sqrtRes)]

theorem map_readReg_eq_registerMap (s : State) :
    [Reg.cmd, .status, .ctrl, .srcBase, .srcLen, .dstBase, .locStride, .locDepth, .locWindow, .resyncCfg, .syncOffset,
      .syncByte, .resultLen, .diffPrev, .sqrtArg, .sqrtRes].map (fun r => (r.offset, s.readReg r)) = registerMap s := by
  rw [registerMap, ← ctrlWord_eq_ite, ← syncByteWord_eq, ← diffPrevWord_eq]
  rfl

theorem exists_reg_of_mem_registerMap {s : State} {p : BitVec 8 × Word} (h : p ∈ registerMap s) :
    ∃ r : Reg, p = (r.offset, s.readReg r) := by
  rw [← map_readReg_eq_registerMap] at h
  obtain ⟨r, -, rfl⟩ := List.mem_map.1 h
  exact ⟨r, rfl⟩

/-- The host's program is in no register. -/
theorem readReg_withProgram (s : State) (program : List HostOp) (r : Reg) :
    State.readReg { s with hostProgram := program } r = s.readReg r := by
  cases r <;> rfl

/-- While idle, a read at a register's offset gives the host the register's value. -/
theorem step_regRead_offset {s : State} {r : Reg} {rest : List HostOp} (hf : s.hostFault = false) (hi : s.pending = none)
    (hp : s.hostProgram = .regRead r.offset 32 :: rest) :
    step s = .next { s with hostProgram := rest, hostReceived := s.readReg r :: s.hostReceived } := by
  rw [step_regRead_of_idle hf hi (offset_aligned r) hp, readOffset_offset, readReg_withProgram]
  rfl

/-- While BUSY = 1 the host may read STATUS (20_memory.md R95). -/
theorem hostRegRead_status (s : State) : s.hostRegRead 0x04 32 = s.receive s.statusWord := by
  rw [State.hostRegRead, if_neg (by decide), if_neg (by rintro ⟨-, h⟩; exact h rfl)]
  rfl

/-- The host's turn at a STATUS read while a command is pending. -/
theorem step_statusRead_of_busy {s : State} {w : Word} {rest : List HostOp} (hf : s.hostFault = false)
    (hw : s.pending = some w) (hm : s.mover = some .host) (hp : s.hostProgram = .regRead 0x04 32 :: rest) :
    step s = .next (s.besideHost rest s.schedule.tail (s.statusWord :: s.hostReceived)) := by
  rw [step_of_mover_host hf hm, takeTurn_of_busy hw, State.hostStep, hp]
  exact congrArg _ (hostRegRead_status _)

/-- The flags of a command that has not ended read 0 (10_state.md R35). -/
theorem State.Inv.busy_status_fields {s : State} (h : s.Inv) (hbusy : s.busy = true) :
    s.statusWord.extractLsb' 1 3 = 0 ∧ s.statusWord.extractLsb' 8 4 = 0 ∧ s.statusWord.extractLsb' 12 2 = 0 := by
  obtain ⟨hdone, hfound, herr, houtcome⟩ := h.busyFlags hbusy
  have hcode : s.errCode = .noError := not_not.1 fun hc => by simp [h.errHasCode.2 hc] at herr
  have value := statusWord_toNat s
  simp only [hdone, hfound, herr, houtcome, hcode, Bool.toNat_false,
    show CmdOutcome.ok.code.toNat = 0 from rfl, show ErrCode.noError.code.toNat = 0 from rfl] at value
  have := s.busy.toNat_lt
  have := s.errSticky.toNat_lt
  have zero {lo len : Nat} (hz : s.statusWord.toNat / 2 ^ lo % 2 ^ len = 0) : s.statusWord.extractLsb' lo len = 0 :=
    BitVec.eq_of_toNat_eq ((extractLsb'_toNat_eq_div_mod _ lo len).trans hz)
  exact ⟨zero (by omega), zero (by omega), zero (by omega)⟩

/-- Settles O10: idle, by the register map; busy, the one read of STATUS. -/
theorem registerReadsReturnTheMap : Obligations.RegisterReadsReturnTheMap := by
  constructor
  · intro s rest hf hi p hmem hp
    obtain ⟨r, rfl⟩ := exists_reg_of_mem_registerMap hmem
    exact step_regRead_offset hf hi hp
  · intro s w rest hf hw hm hp
    refine ⟨step_statusRead_of_busy hf hw hm hp, ?_, fun h => h.busy_status_fields (busy_of_pending hw)⟩
    rw [statusWord_getLsbD_zero, hw, Option.isSome_some]

/-! ### A written register reads back (10_state.md R51; 44_host_interface.md R241) -/

/-- Of a value written to CTRL bit 0 is kept. -/
theorem ctrlWord_getLsbD_zero (v : Word) : (0 : BitVec 31) ++ BitVec.ofBool (v.getLsbD 0) = v &&& 1 := by
  have hand : v &&& 1 = (BitVec.ofBool (v.getLsbD 0)).setWidth 32 := BitVec.and_one_eq_setWidth_ofBool_getLsbD
  rw [hand]
  cases v.getLsbD 0 <;> rfl

/-- Of a value written to DIFF_PREV the two low bytes are kept. -/
theorem diffPrevWord_extractLsb' (v : Word) :
    (0 : BitVec 16) ++ v.extractLsb' 8 8 ++ v.extractLsb' 0 8 = v &&& 0xFFFF := by
  have mask : v.toNat &&& (0xFFFF : Word).toNat = v.toNat % 2 ^ 16 := Nat.and_two_pow_sub_one_eq_mod v.toNat 16
  refine BitVec.eq_of_toNat_eq ?_
  rw [diffPrevWord_eq, BitVec.toNat_and, mask, BitVec.toNat_ofNat, extractLsb'_toNat_eq_div_mod,
    extractLsb'_toNat_eq_div_mod]
  omega

/-- The ten RW registers' offsets, each with the state a write of `v` leaves and the value a read then returns. -/
def rwRegisters (s : State) (v : Word) : List (BitVec 8 × State × Word) :=
  [(0x08, { s with ctrlDiffSat := v.getLsbD 0 }, v &&& 1), (0x0C, { s with srcBase := v }, v),
    (0x10, { s with srcLen := v }, v), (0x14, { s with dstBase := v }, v), (0x18, { s with locStride := v }, v),
    (0x1C, { s with locDepth := v }, v), (0x20, { s with locWindow := v }, v), (0x24, { s with resyncCfg := v }, v),
    (0x34, { s with diffPrevI := v.extractLsb' 0 8, diffPrevQ := v.extractLsb' 8 8 }, v &&& 0xFFFF),
    (0x38, { s with sqrtArg := v }, v)]

theorem map_writeReg_eq_rwRegisters (s : State) (v : Word) :
    [Reg.ctrl, .srcBase, .srcLen, .dstBase, .locStride, .locDepth, .locWindow, .resyncCfg, .diffPrev, .sqrtArg].map
      (fun r => (r.offset, s.writeReg v r, (s.writeReg v r).readReg r)) = rwRegisters s v := by
  rw [rwRegisters, ← ctrlWord_getLsbD_zero, ← diffPrevWord_extractLsb']
  rfl

theorem exists_reg_of_mem_rwRegisters {s : State} {v : Word} {p : BitVec 8 × State × Word} (h : p ∈ rwRegisters s v) :
    ∃ r : Reg, r ≠ .cmd ∧ p = (r.offset, s.writeReg v r, (s.writeReg v r).readReg r) := by
  rw [← map_writeReg_eq_rwRegisters] at h
  obtain ⟨r, hr, rfl⟩ := List.mem_map.1 h
  exact ⟨r, by rintro rfl; exact absurd hr (by decide), rfl⟩

/-- The host's program plays no part in a register write. -/
theorem writeReg_withProgram (s : State) (program : List HostOp) (v : Word) (r : Reg) :
    State.writeReg { s with hostProgram := program } v r = { s.writeReg v r with hostProgram := program } := by
  cases r <;> rfl

theorem writeReg_hostFault (s : State) (v : Word) (r : Reg) : (s.writeReg v r).hostFault = s.hostFault := by
  cases r <;> rfl

theorem writeReg_hostReceived (s : State) (v : Word) (r : Reg) : (s.writeReg v r).hostReceived = s.hostReceived := by
  cases r <;> rfl

/-- Only CMD launches a command (44_host_interface.md R244). -/
theorem writeReg_pending (s : State) (v : Word) {r : Reg} (hr : r ≠ .cmd) : (s.writeReg v r).pending = s.pending := by
  cases r with
  | cmd => exact absurd rfl hr
  | _ => rfl

/-- While idle, a write at a register's offset is the write of the register. -/
theorem step_regWrite_offset {s : State} {r : Reg} {v : Word} {rest : List HostOp} (hf : s.hostFault = false)
    (hi : s.pending = none) (hp : s.hostProgram = .regWrite r.offset 32 v :: rest) :
    step s = .next { s.writeReg v r with hostProgram := rest } := by
  rw [step_regWrite_of_idle hf hi (offset_aligned r) hp, writeOffset_offset, writeReg_withProgram]

theorem run_two {s t u : State} (hst : step s = .next t) (htu : step t = .next u) :
    Host.Core.run core 2 s = .next u :=
  (run_succ (M := core) 1 hst).trans (run_succ (M := core) 0 htu)

/-- Settles O11: the write stores the register's fields, and the read after it, idle as before, gives them back. -/
theorem writtenRegistersReadBack : Obligations.WrittenRegistersReadBack := by
  intro s v rest hf hi p hmem hp
  obtain ⟨r, hr, rfl⟩ := exists_reg_of_mem_rwRegisters hmem
  have hwrite := step_regWrite_offset hf hi hp
  have hread : step { s.writeReg v r with hostProgram := .regRead r.offset 32 :: rest } = _ :=
    step_regRead_offset ((writeReg_hostFault s v r).trans hf) ((writeReg_pending s v hr).trans hi) rfl
  refine ⟨hwrite, (run_two hwrite hread).trans ?_⟩
  rw [readReg_withProgram, writeReg_hostReceived]

/-! ### Bytes and integers (20_memory.md R85) -/

@[simp] theorem bytesOf_length (n v : Nat) : (bytesOf n v).length = n := by
  induction n generalizing v with
  | zero => rfl
  | succ n ih => rw [bytesOf, List.length_cons, ih]

theorem bytesOf_getElem_toNat {n i : Nat} (v : Nat) (h : i < (bytesOf n v).length) :
    ((bytesOf n v)[i]).toNat = v / 256 ^ i % 256 := by
  induction n generalizing v i with
  | zero => exact absurd h (Nat.not_lt_zero i)
  | succ n ih =>
    cases i with
    | zero => simp [bytesOf]
    | succ i =>
      have hi : i < (bytesOf n (v / 256)).length := Nat.lt_of_succ_lt_succ h
      exact (ih (v / 256) hi).trans (by rw [Nat.div_div_eq_div_mul, Nat.pow_succ'])

/-- The `n` low bytes of a value hold it modulo 256^n. -/
theorem littleEndian_bytesOf (n v : Nat) : littleEndian (bytesOf n v) = v % 256 ^ n := by
  induction n generalizing v with
  | zero => exact (Nat.mod_one v).symm
  | succ n ih =>
    have hpow : 256 ^ (n + 1) = 256 * 256 ^ n := Nat.pow_succ'
    rw [bytesOf, littleEndian, ih, BitVec.toNat_ofNat, hpow]
    exact Nat.mod_mul.symm

/-- The bytes stored for a value are read back. -/
theorem readBytes_writeBytes_bytesOf {m : Memory} (hm : m.wf) (a n v : Nat) :
    (m.writeBytes a (bytesOf n v)).readBytes a n = bytesOf n v := by
  refine List.ext_getElem (by simp) fun i _ hi => ?_
  rw [Memory.readBytes_getElem, Memory.read_writeBytes_inside hm a _ i hi]

theorem littleEndian_readBytes_four (m : Memory) (a : Nat) :
    littleEndian (m.readBytes a 4) = (m.read a).toNat + 256 * (m.read (a + 1)).toNat +
      65536 * (m.read (a + 2)).toNat + 16777216 * (m.read (a + 3)).toNat := by
  simp only [Memory.readBytes, littleEndian, Nat.add_assoc, Nat.reduceAdd]
  omega

/-! ### Symbol-memory accesses while idle (44_host_interface.md R242; 20_memory.md R86) -/

section SymbolAccess

variable {s : State} {a : Nat} {w : SymWidth} {rest : List HostOp} (hf : s.hostFault = false) (hi : s.pending = none)
  (hin : a + w.bytes ≤ s.symMemSize)

include hf hi hin

theorem step_symWrite_of_idle {v : Word} (hp : s.hostProgram = .symWrite a w v :: rest) :
    step s = .next { s with hostProgram := rest, mem := s.mem.writeBytes a (bytesOf w.bytes v.toNat) } := by
  rw [step_of_idle hf hi hp, State.hostStep, hp]
  exact congrArg _ (if_neg (by simp [hi, hin]))

theorem step_symRead_of_idle (hp : s.hostProgram = .symRead a w :: rest) :
    step s = .next { s with
      hostProgram := rest
      hostReceived := BitVec.ofNat 32 (littleEndian (s.mem.readBytes a w.bytes)) :: s.hostReceived } := by
  rw [step_of_idle hf hi hp, State.hostStep, hp]
  exact congrArg _ (if_neg (by simp [hi, hin]))

/-- A write and a read of the same bytes give the host the value's low bytes back (20_memory.md R85). -/
theorem run_symWrite_symRead {v : Word} (hm : s.mem.wf) (hp : s.hostProgram = .symWrite a w v :: .symRead a w :: rest) :
    Host.Core.run core 2 s = .next { s with
      hostProgram := rest
      mem := s.mem.writeBytes a (bytesOf w.bytes v.toNat)
      hostReceived := BitVec.ofNat 32 (v.toNat % 256 ^ w.bytes) :: s.hostReceived } := by
  have hvalue : littleEndian ((s.mem.writeBytes a (bytesOf w.bytes v.toNat)).readBytes a w.bytes) = _ :=
    (congrArg littleEndian (readBytes_writeBytes_bytesOf hm a w.bytes v.toNat)).trans (littleEndian_bytesOf ..)
  rw [← hvalue]
  refine run_two (step_symWrite_of_idle hf hi hin hp) ?_
  exact step_symRead_of_idle (s := { s with
    hostProgram := .symRead a w :: rest, mem := s.mem.writeBytes a (bytesOf w.bytes v.toNat) }) hf hi hin rfl

end SymbolAccess

/-- Settles O13: the bytes written are the value's low bytes, which the memory holds and nothing else of it changes. -/
theorem symbolWritesReadBackLittleEndian : Obligations.SymbolWritesReadBackLittleEndian := by
  constructor
  · intro s a w v rest hm hf hi bytes hin hp
    have hbytes : bytes = w.bytes := by cases w <;> rfl
    clear_value bytes
    subst hbytes
    refine ⟨_, run_symWrite_symRead hf hi hin hm hp, rfl, fun i hib => ?_, fun b hb => ?_⟩
    · have hib' : i < (bytesOf w.bytes v.toNat).length := by rwa [bytesOf_length]
      exact (congrArg _ (Memory.read_writeBytes_inside hm a _ i hib')).trans (bytesOf_getElem_toNat _ hib')
    · exact Memory.read_writeBytes_outside _ _ (by rwa [bytesOf_length])
  · intro s a w rest hf hi byte hin hp
    have hin' : a + w.bytes ≤ s.symMemSize := by cases w <;> exact hin
    have hread := step_symRead_of_idle hf hi hin' hp
    cases w with
    | one => exact hread
    | two => exact hread
    | four =>
      have hfour : littleEndian (s.mem.readBytes a SymWidth.four.bytes) = _ := littleEndian_readBytes_four s.mem a
      rw [hfour] at hread
      exact hread

/-! ### A STATUS read and the engine's step in either order (44_host_interface.md R243) -/

/-- The engine's turn at the head of the schedule, whatever the host has left to do. -/
theorem step_engine_besideHost {s u : State} {w : Word} (hf : s.hostFault = false) (hw : s.pending = some w)
    (hu : engineStep s = .next u) (program : List HostOp) (later : List Agent) (received : List Word) :
    step (s.besideHost program (.engine :: later) received) = .next (u.besideHost program later received) := by
  have hb : (s.besideHost program (.engine :: later) received).pending = some w := hw
  have hm : (s.besideHost program (.engine :: later) received).mover = some .engine := by
    cases program with
    | nil => simp [State.mover, State.besideHost, hw]
    | cons op rest => exact mover_of_busy hb rfl
  rw [step_of_mover_engine (by exact hf) hm, takeTurn_of_busy hb]
  exact (engineStep_besideHost s program later received).trans (congrArg _ hu)

/-- Settles O15: the engine's step does not see the host, and a read of STATUS changes only the host's own part. -/
theorem interleavingsLeaveTheSameBlock : Obligations.InterleavingsLeaveTheSameBlock := by
  intro s w rest later hf hw hp
  obtain ⟨u, hu, -⟩ := engineStep_cases s w hw
  obtain ⟨hidle, hfault⟩ := engineStep_ends hw hu
  have hread : step { s with schedule := .host :: .engine :: later } = .next
      (s.besideHost rest (.engine :: later) (s.statusWord :: s.hostReceived)) :=
    step_statusRead_of_busy hf hw (mover_of_busy hw hp) hp
  have hengine := step_engine_besideHost hf hw hu
  have hs : { s with schedule := .engine :: later } =
    s.besideHost (.regRead 0x04 32 :: rest) (.engine :: later) s.hostReceived := hp ▸ rfl
  have hafter : step (u.besideHost (.regRead 0x04 32 :: rest) later s.hostReceived) = _ :=
    step_regRead_offset (r := .status) (hfault.trans hf) hidle rfl
  exact ⟨_, _, run_two hread (hengine ..), run_two (hs ▸ hengine ..) hafter, rfl, hidle, rfl, rfl, rfl, rfl⟩

end Sys2Proof.Machine

namespace Sys2Proof.Machine

/-! ### The host-protocol fault (60_exceptions.md R270; 20_memory.md R86, R91, R95) -/

/-- The transaction may not be made in this state: the block is busy with a command, the register access is malformed, or the
symbol-memory access leaves the memory (60_exceptions.md R270 (a), (b), (c)). -/
def BreaksProtocol (s : State) : HostOp → Prop
  | .regRead off width => (s.busy ∧ off ≠ 0x04) ∨ ¬ RegAccessFormed off width
  | .regWrite off width _ => s.busy ∨ ¬ RegAccessFormed off width
  | .symRead a w => s.busy ∨ s.symMemSize < a + w.bytes
  | .symWrite a w _ => s.busy ∨ s.symMemSize < a + w.bytes
  | .poll => False
  | .reset => False

/-- A guarded operation sets the mark where its guard fails, and otherwise leaves it to the operation. -/
theorem hostFault_guarded_iff {p : Prop} [Decidable p] (s t : State) :
    (if p then s.markHostFault else t).hostFault = true ↔ p ∨ t.hostFault = true := by
  by_cases hp : p <;> simp [hp]

theorem writeOffset_hostFault (s : State) (off : BitVec 8) (v : Word) : (s.writeOffset off v).hostFault = s.hostFault := by
  unfold State.writeOffset
  split
  · exact writeReg_hostFault s v _
  · rfl

theorem hostRegRead_hostFault_iff (s : State) (off : BitVec 8) (width : Nat) :
    (s.hostRegRead off width).hostFault = true ↔
      ((s.busy ∧ off ≠ 0x04) ∨ ¬ RegAccessFormed off width) ∨ s.hostFault = true := by
  rw [State.hostRegRead, hostFault_guarded_iff, hostFault_guarded_iff, ← or_assoc, or_comm (a := ¬ _)]
  rfl

theorem hostRegWrite_hostFault_iff (s : State) (off : BitVec 8) (width : Nat) (v : Word) :
    (s.hostRegWrite off width v).hostFault = true ↔ (s.busy ∨ ¬ RegAccessFormed off width) ∨ s.hostFault = true := by
  rw [State.hostRegWrite, hostFault_guarded_iff, hostFault_guarded_iff, writeOffset_hostFault, ← or_assoc,
    or_comm (a := ¬ _)]

theorem hostSymRead_hostFault_iff (s : State) (a : Nat) (w : SymWidth) :
    (s.hostSymRead a w).hostFault = true ↔ (s.busy ∨ s.symMemSize < a + w.bytes) ∨ s.hostFault = true := by
  rw [State.hostSymRead, hostFault_guarded_iff, Nat.not_le, State.receive_hostFault]

theorem hostSymWrite_hostFault_iff (s : State) (a : Nat) (w : SymWidth) (v : Word) :
    (s.hostSymWrite a w v).hostFault = true ↔ (s.busy ∨ s.symMemSize < a + w.bytes) ∨ s.hostFault = true := by
  rw [State.hostSymWrite, hostFault_guarded_iff, Nat.not_le]

theorem hostPoll_hostFault (s : State) (rest : List HostOp) : (s.hostPoll rest).hostFault = s.hostFault := by
  simp [State.hostPoll, apply_ite State.hostFault]

/-- After a host transaction the mark stands where the transaction broke the protocol or the mark stood before. -/
theorem hostStep_hostFault_iff {s : State} {op : HostOp} {rest : List HostOp} (hp : s.hostProgram = op :: rest) :
    s.hostStep.hostFault = true ↔ BreaksProtocol s op ∨ s.hostFault = true := by
  rw [State.hostStep, hp]
  cases op with
  | regRead off width => exact hostRegRead_hostFault_iff _ off width
  | regWrite off width v => exact hostRegWrite_hostFault_iff _ off width v
  | symRead a w => exact hostSymRead_hostFault_iff _ a w
  | symWrite a w v => exact hostSymWrite_hostFault_iff _ a w v
  | poll => rw [hostPoll_hostFault, BreaksProtocol, false_or]
  | reset => exact (false_or _).symm.to_iff

theorem hostStep_keeps_hostFault {s : State} (h : s.hostFault = true) : s.hostStep.hostFault = true := by
  cases hp : s.hostProgram with
  | nil => rwa [State.hostStep, hp]
  | cons op rest => exact (hostStep_hostFault_iff hp).2 (.inr h)

theorem engineStep_hostFault (s : State) : ∃ t, engineStep s = .next t ∧ t.hostFault = s.hostFault := by
  cases hw : s.pending with
  | none => exact ⟨s, by rw [engineStep, hw], rfl⟩
  | some w =>
    obtain ⟨t, ht, -⟩ := engineStep_cases s w hw
    obtain ⟨-, hkeep⟩ := engineStep_ends hw ht
    exact ⟨t, ht, hkeep⟩

/-- Settles O14: a transaction's guards are R270's cases, and neither the host's step nor the engine's clears the mark. -/
theorem hostFaultExactlyOnProtocolViolations : Obligations.HostFaultExactlyOnProtocolViolations := by
  constructor
  · intro s op rest hf hp hm
    refine ⟨_, step_of_mover_host hf hm, ?_⟩
    have hiff := hostStep_hostFault_iff (s := s.takeTurn) hp
    rw [State.takeTurn_hostFault, hf, or_iff_left Bool.false_ne_true] at hiff
    refine hiff.trans ?_
    cases op with
    | regRead off width | regWrite off width v => exact or_congr_right not_and_or
    | symRead a w | symWrite a w v => cases w <;> exact Iff.rfl
    | poll | reset => exact Iff.rfl
  · intro s h
    obtain ⟨t, ht, hkeep⟩ := engineStep_hostFault s
    exact ⟨hostStep_keeps_hostFault h, t, ht, hkeep.trans h⟩

/-! ### What an error changes (60_exceptions.md R262, R263) -/

/-- A command that completes writes neither ERR nor ERRCODE. -/
theorem Completes.error_flags {i : Instr} {s t : State} (hc : Completes i s t) :
    t.err = s.err ∧ t.errCode = s.errCode := by
  cases i with
  | nop => exact hc ▸ ⟨rfl, rfl⟩
  | sqrtInit | sqrtRelease | resync =>
    obtain ⟨-, rfl⟩ := hc
    exact ⟨rfl, rfl⟩
  | sqrtLookup | deinterleave =>
    obtain ⟨-, -, -, rfl⟩ := hc
    exact ⟨rfl, rfl⟩
  | diffDecode =>
    obtain ⟨-, -, -, -, rfl⟩ := hc
    exact ⟨rfl, rfl⟩
  | syncLocate => obtain ⟨-, ⟨_, _, -, rfl⟩ | ⟨-, rfl⟩⟩ := hc <;> exact ⟨rfl, rfl⟩
  | resyncDeinterleave =>
    obtain ⟨-, -, -, ⟨-, rfl⟩ | ⟨-, -, rfl⟩ | ⟨-, -, rfl⟩⟩ := hc <;> exact ⟨rfl, rfl⟩

/-- Settles O24: only `raise Error` sets ERR, and it ends the command at the state it started from. -/
theorem errorsChangeOnlyStatus : Obligations.ErrorsChangeOnlyStatus := by
  intro i s t ht hclear hset
  obtain ⟨t', ht', ⟨c, hc, rfl⟩ | hc⟩ := exec_cases i s <;> cases ht.symm.trans ht'
  · exact ⟨hc, rfl⟩
  · obtain ⟨herr, -⟩ := hc.error_flags
    rw [herr, hclear] at hset
    cases hset

/-! ### The order of a command's checks (60_exceptions.md R264) -/

/-- The command ends with the code `e` in ERRCODE. -/
def Reports (o : Host.Outcome State Fault Refusal) (e : ErrCode) : Prop := ∃ t, o = .next t ∧ t.errCode = e

/-- One check `p`, with `q` the same check in the spec's operands: it reports its own code, and only where it passes do the
checks after it report theirs. -/
theorem Reports.check {p q : Prop} [Decidable p] [Decidable q] {c e : ErrCode} {s : State}
    {o : Host.Outcome State Fault Refusal} (hpq : p ↔ q) (h : Reports o e) :
    Reports (if p then raise c s else o) (if q then c else e) := by
  by_cases hp : p
  · rw [if_pos hp, if_pos (hpq.1 hp)]
    exact ⟨_, rfl, rfl⟩
  · rwa [if_neg hp, if_neg (hpq.not.1 hp)]

theorem reports_completeWith {o : CmdOutcome} {s : State} (h : s.errCode = .noError) :
    Reports (completeWith o s) .noError := ⟨_, rfl, h⟩

theorem not_regionValid_iff {size base len : Nat} : ¬ RegionValid size base len ↔ len ≠ 0 ∧ size < base + len :=
  not_or.trans (and_congr_right' Nat.not_le)

/-- SYNC_LOCATE has a region to check only where it has a candidate (40_sync_detector.md R147). -/
theorem not_regionValid_locateSpan_iff (s : State) :
    ¬ RegionValid s.symMemSize s.src s.locateSpan ↔
      s.window > s.stride * s.depth ∧ s.symMemSize < s.src + (s.window + 7) := by
  rw [not_regionValid_iff, State.locateSpan]
  split <;> simp [*]

theorem retry_eq_zero_iff (s : State) : s.retry = 0 ↔ s.resyncCfg.toNat / 256 % 256 = 0 := by rw [retry_eq]

section CheckOrder

variable {s : State} (h : s.errCode = .noError)

include h

theorem execSyncLocate_reports :
    Reports (execSyncLocate s)
      (if s.window > s.stride * s.depth ∧ s.symMemSize < s.src + (s.window + 7) then .range else .noError) := by
  refine .check (not_regionValid_locateSpan_iff s) ?_
  split <;> exact reports_completeWith h

/-- After its checks RESYNC_DEINTERLEAVE completes, whichever of its three outcomes it has. -/
theorem execResyncDeinterleave_reports :
    Reports (execResyncDeinterleave s)
      (if s.resyncCfg.toNat / 256 % 256 = 0 then .badCfg
        else if s.n ≠ 0 ∧ s.symMemSize < s.src + s.n then .range
        else if maxOut s.n ≠ 0 ∧ s.symMemSize < s.dst + maxOut s.n then .range
        else if RegionOverlap s.src s.n s.dst (maxOut s.n) then .overlap else .noError) := by
  refine .check (retry_eq_zero_iff s) <| .check not_regionValid_iff <| .check not_regionValid_iff <| .check Iff.rfl ?_
  dsimp only
  split_ifs <;> exact reports_completeWith h

end CheckOrder

/-- Settles O25: each command is the chain of its checks, and an illegal word has none. -/
theorem checksReportInTheirFixedOrder : Obligations.ChecksReportInTheirFixedOrder := by
  constructor
  · intro i s h src n dst window sd a out mo meet
    have completes {o : CmdOutcome} {t : State} (ht : t.errCode = s.errCode) : Reports (completeWith o t) .noError :=
      reports_completeWith (ht.trans h)
    change Reports (exec i s) _
    cases i with
    | nop => exact completes rfl
    | sqrtInit | sqrtRelease => exact .check Iff.rfl (completes rfl)
    | sqrtLookup => exact .check Iff.rfl <| .check Iff.rfl (completes rfl)
    | diffDecode =>
      exact .check Iff.rfl <| .check (or_congr_right Nat.mod_two_ne_zero) <| .check not_regionValid_iff (completes rfl)
    | syncLocate => exact execSyncLocate_reports h
    | resync => exact .check (retry_eq_zero_iff s) <| .check not_regionValid_iff (completes rfl)
    | deinterleave =>
      exact .check not_regionValid_iff <| .check not_regionValid_iff <| .check Iff.rfl (completes rfl)
    | resyncDeinterleave => exact execResyncDeinterleave_reports h
  · intro s w why hw hd
    exact ⟨_, engineStep_of_illegal hw hd, rfl⟩

end Sys2Proof.Machine

namespace Sys2Proof.Machine

/-! ### The reset input (70_reset_and_hazards.md R290, R291) -/

/-- With no command pending there is nothing to abandon. -/
theorem abandonedRegions_of_idle {s : State} (hi : s.pending = none) : s.abandonedRegions = [] := by
  rw [State.abandonedRegions, hi]

theorem resetInput_mem_of_idle {s : State} (hi : s.pending = none) : s.resetInput.mem = s.mem := by
  rw [State.resetInput, abandonedRegions_of_idle hi, Memory.scrambleRegions]

theorem read_resetInput_outside {s : State} {b : Nat} (h : ∀ r ∈ s.abandonedRegions, b < r.1 ∨ r.1 + r.2 ≤ b) :
    s.resetInput.mem.read b = s.mem.read b :=
  Memory.read_scrambleRegions_outside s.mem s.draws s.symMemSize s.abandonedRegions h

/-- The reset input as the host's next transaction: all but memory, the draws, the memory's size and the host is R60's. -/
theorem step_reset {s : State} {rest : List HostOp} (hf : s.hostFault = false) (hp : s.hostProgram = .reset :: rest)
    (hm : s.mover = some .host) : step s = .next { State.reset with
      mem := s.resetInput.mem, draws := s.draws + 1, symMemSize := s.symMemSize, hostProgram := rest,
      schedule := if s.busy then s.schedule.tail else s.schedule, hostReceived := s.hostReceived } := by
  have hstep : s.takeTurn.hostStep = { s.takeTurn with hostProgram := rest }.resetInput := by
    rw [State.hostStep, State.takeTurn_hostProgram, hp]
  rw [step_of_mover_host hf hm, hstep, State.resetInput, State.takeTurn_hostFault, hf]
  rfl

/-- Settles O18: the memory alone depends on the pending command, and a byte outside what R290 lets that command write is outside
every abandoned region. -/
theorem resetInputRestoresTheRegisters : Obligations.ResetInputRestoresTheRegisters := by
  intro s rest hf hp hm
  refine ⟨_, step_reset hf hp hm, rfl, fun hidle => resetInput_mem_of_idle (by simpa using hidle), ?_⟩
  intro w hw a hout
  refine read_resetInput_outside ?_
  rw [State.abandonedRegions, hw]
  dsimp only
  cases hd : decode w with
  | illegal why => exact List.forall_mem_nil _
  | command i =>
    rw [hd] at hout
    cases i with
    | nop | sqrtInit | sqrtRelease | sqrtLookup | syncLocate => exact List.forall_mem_nil _
    | diffDecode | resync | deinterleave => exact List.forall_mem_singleton.2 hout
    | resyncDeinterleave =>
      obtain ⟨hsrc, hdst⟩ := hout
      exact List.forall_mem_cons.2 ⟨hsrc, List.forall_mem_singleton.2 hdst⟩

end Sys2Proof.Machine
